-- ==== Sys2Proof/Word.lean ====
section
/-!
DEFINITION. The value types of the codec (spec/30_encoding.md section 2, spec/00_scope.md rule R6): one fixed-width bit
vector per data format, and the two kinds of value that pass over a port.

Notation of rule R8 in Lean: `u(v)` is `v.toNat`, `s_N(v)` is `v.toInt`, `neg_N(v)` is `-v`, `zext_N(v)` is
`v.setWidth N`, `concatenation` is `++` with its most significant part on the left, and `v[i]` is `v.getLsbD i` (bit 0 is
the least significant bit, rule R7).
-/

namespace Sys2Proof

/-- LinearSample: 16 bits, two's complement, the whole range [-32768, 32767] (rule R41). -/
abbrev LinearSample := BitVec 16

/-- Codeword: 8 bits, unsigned, as transmitted, that is after the mask (rule R47).  The pre-mask codeword of rule R46 has
the same width. -/
abbrev Codeword := BitVec 8

/-- The absolute value before the clamp, 16 bits read UNSIGNED, in [0, 32768] (rules R42, R62). -/
abbrev MagRaw := BitVec 16

/-- Magnitude: 12 bits, unsigned, after the clamp (rules R42, R63). -/
abbrev Magnitude := BitVec 12

/-- Sign: one bit, 1 for a sample that is not negative (rule R43). -/
abbrev Sign := BitVec 1

/-- Segment (chord): 3 bits (rule R44). -/
abbrev Segment := BitVec 3

/-- Mantissa (step): 4 bits (rule R45). -/
abbrev Mantissa := BitVec 4

/-- One operand as it is presented: the bits on the input port of ONE unit.  The port is what selects the operation; no
bit of the operand does (rules R16, R40). -/
inductive PortWord where
  /-- 16 bits on `ENC.lin_in[15:0]`. -/
  | linIn (v : LinearSample)
  /-- 8 bits on `DEC.cw_in[7:0]`. -/
  | cwIn (v : Codeword)
deriving DecidableEq, Repr

/-- One result as the host collects it from an output port (rules R16, R29). -/
inductive PortResult where
  /-- 8 bits from `ENC.cw_out[7:0]`. -/
  | cwOut (v : Codeword)
  /-- 16 bits from `DEC.lin_out[15:0]`. -/
  | linOut (v : LinearSample)
deriving DecidableEq, Repr

/-- The width of the port that the operand stands on: 16 for `ENC.lin_in`, 8 for `DEC.cw_in` (rules R16, R29). -/
def PortWord.width : PortWord → Nat
  | .linIn _ => 16
  | .cwIn _ => 8

/-- The operand's bits as one number, bit 0 the least significant (rule R7). -/
def PortWord.bits : PortWord → Nat
  | .linIn v => v.toNat
  | .cwIn v => v.toNat

end Sys2Proof
end

