-- ==== Sys2Proof/Syntax.lean ====
section
/-!
DEFINITION. The operation set (spec/30_encoding.md rule R40, spec/opcode_table.json): `ENCODE` and `DECODE` and nothing
else.  Each operation has exactly one operand, which is the whole value on its unit's input port.
-/

namespace Sys2Proof

/-- One transaction: one operation applied to one operand (rules R2, R40; the spec's word "transaction", rule R9). -/
inductive Instr where
  /-- `ENCODE` (row ENC16): unit ENC, the LinearSample on `ENC.lin_in[15:0]` (rules R48, R60). -/
  | encode (linIn : LinearSample)
  /-- `DECODE` (row DEC8): unit DEC, the Codeword on `DEC.cw_in[7:0]` (rules R49, R80). -/
  | decode (cwIn : Codeword)
deriving DecidableEq, Repr

end Sys2Proof
end

