-- ==== Sys2Proof/WellFormed.lean ====
section
/-!
DEFINITION. What is well formed.

An INSTRUCTION always is: "Every one of the 65536 values of `ENC.lin_in` is a legal operand of `ENCODE` and every one of
the 256 values of `DEC.cw_in` is a legal operand of `DECODE`" (spec/30_encoding.md rule R50), and `Instr`'s operands have
exactly those widths.  The checks there are concern what stands BEFORE an instruction: a bare pattern of bits (is there a
port of its width, and does it fit?) and a line of the transaction notation (rule R53: is the literal in its range?).
-/

namespace Sys2Proof

/-- Rule R50: no operand is reserved, so both instructions are well formed with every operand. -/
def Instr.wf : Instr → Bool
  | .encode _ => true
  | .decode _ => true

/-- A bare pattern of bits is an operand when a port has its width (rules R29, R40: 16 bits for ENC16, 8 for DEC8) and
the number fits that width. -/
def bitsWf (nbits w : Nat) : Bool :=
  (nbits == 16 || nbits == 8) && decide (w < 2 ^ nbits)

/-- One line of the spec's transaction notation, before its literal is read (rule R53): `ENC <int>` with a decimal integer
or a 4-digit hexadecimal pattern of `lin_in`, `DEC <byte>` with a 2-digit hexadecimal pattern of `cw_in` or a decimal
integer. -/
inductive Line where
  | encInt (n : Int)
  | encHex (pattern : Nat)
  | decInt (n : Int)
  | decHex (pattern : Nat)
deriving DecidableEq, Repr

/-- The literal ranges of rule R53: [-32768, 32767] or four hexadecimal digits for `ENC`, [0, 255] or two hexadecimal
digits for `DEC`. -/
def Line.wf : Line → Bool
  | .encInt n => decide (-32768 ≤ n ∧ n ≤ 32767)
  | .encHex v => decide (v < 0x10000)
  | .decInt n => decide (0 ≤ n ∧ n ≤ 255)
  | .decHex v => decide (v < 0x100)

end Sys2Proof
end

