-- ==== Sys2Proof/Decode.lean ====
section
/-!
DEFINITION. From bits to transactions and back (spec/30_encoding.md rules R40, R48 to R53).  An operation is selected by
the unit that performs it, so an operand on a port decodes without any choice (`decodePort`), and a bare pattern of bits
decodes by its width alone, because the two input ports have different widths (notes/assumptions/6.md).
-/

namespace Sys2Proof

/-! ## Decoding -/

/-- Why a bare pattern of bits is no operand of this hardware.  (A pattern of a port's own width is never rejected,
rule R50.) -/
inductive DecodeError where
  /-- No input port has this width (rules R16, R29). -/
  | noPortOfWidth (nbits : Nat)
  /-- The number has bits above the width it is said to have. -/
  | bitsBeyondWidth (nbits w : Nat)
deriving DecidableEq, Repr

/-- The port on which a bare pattern of `nbits` bits is presented. -/
def portWordOfBits (nbits w : Nat) : Except DecodeError PortWord :=
  if nbits = 16 then
    if w < 2 ^ 16 then .ok (.linIn (BitVec.ofNat 16 w)) else .error (.bitsBeyondWidth nbits w)
  else if nbits = 8 then
    if w < 2 ^ 8 then .ok (.cwIn (BitVec.ofNat 8 w)) else .error (.bitsBeyondWidth nbits w)
  else .error (.noPortOfWidth nbits)

/-- Rule R40: the unit is the operation.  ENC performs ENCODE on what stands on `ENC.lin_in`, DEC performs DECODE on what
stands on `DEC.cw_in`; "a model's decoder for this hardware never answers invalid" (rule R50). -/
def decodePort : PortWord → Instr
  | .linIn v => .encode v
  | .cwIn v => .decode v

/-- The decoder on bare bits: total, and it rejects by name. -/
def decodeBits (nbits w : Nat) : Except DecodeError Instr :=
  match portWordOfBits nbits w with
  | .ok pw => .ok (decodePort pw)
  | .error e => .error e

/-- The instruction read from the bits `w` of a table row of `nbits` bits. -/
def decodeTableWord (nbits w : Nat) : Option Instr :=
  match decodeBits nbits w with
  | .ok i => some i
  | .error _ => none

/-! ## Encoding -/

/-- The encoding of a transaction: "the operand bit pattern on the unit's input port" (rule R53). -/
def encodePort : Instr → PortWord
  | .encode v => .linIn v
  | .decode v => .cwIn v

/-- The same as a table row gives it: its width in bits and the bits as a number. -/
def encodeTableWord (i : Instr) : Nat × Nat :=
  ((encodePort i).width, (encodePort i).bits)

/-! ## The transaction notation of rule R53 -/

/-- A line of the notation, read: a decimal literal is the value, a hexadecimal one is the bit pattern.  A literal out of
its range makes no transaction. -/
def assemble (l : Line) : Option Instr :=
  if l.wf then
    match l with
    | .encInt n => some (.encode (BitVec.ofInt 16 n))
    | .encHex v => some (.encode (BitVec.ofNat 16 v))
    | .decInt n => some (.decode (BitVec.ofInt 8 n))
    | .decHex v => some (.decode (BitVec.ofNat 8 v))
  else none

end Sys2Proof
end

