-- ==== Sys2Proof/Config.lean ====
section
/-!
DEFINITION. The implementation parameters (spec/00_scope.md rule R6).  The only one the spec leaves as a named parameter
is `SMALL_LIMIT`, with the admissible set {16, 32}; the spec's value for this hardware is 32 (spec/92_eei_decisions.md D1,
spec/90_conflicts.md C1).  Every other row of the table is a constant.  Nothing in this hardware is a free value: "every
result is a function of the operand and of SMALL_LIMIT" (spec/93_implementation_defined.md).
-/

namespace Sys2Proof

/-- The admissible values of `SMALL_LIMIT`, the small-magnitude threshold of ENCODE (rules R6, R64, R73). -/
inductive SmallLimit where
  /-- 16: the source document's literal (rule R73). -/
  | lim16
  /-- 32: the spec's value for this hardware (D1). -/
  | lim32
deriving DecidableEq, Repr

/-- The threshold as a number. -/
def SmallLimit.value : SmallLimit → Nat
  | .lim16 => 16
  | .lim32 => 32

/-- What is fixed per design and the same for every transaction (rule R6; spec/93_implementation_defined.md U1). -/
structure Config where
  smallLimit : SmallLimit
deriving DecidableEq, Repr

namespace Config

/-- The hardware this spec describes: `SMALL_LIMIT = 32` (rule R6, D1). -/
def spec : Config := { smallLimit := .lim32 }

/-- `MAG_MAX`, the saturation value of the magnitude clamp: 4095, all twelve bits set (rules R6, R63). -/
def magMax : Magnitude := 0xFFF#12

/-- `MASK`, the inversion mask: "0x55 (fixed; not configurable)" (rules R6, R14, R47). -/
def mask : Codeword := 0x55#8

/-- The lowest bit position of the segment window 4..11: Segment = position - 4 (rules R6, R65). -/
def windowLow : BitVec 4 := 4#4

end Config

end Sys2Proof
end

