-- ==== Sys2Proof/Machine/Operands.lean ====
section
/-!
DEFINITION. The two operand forms (spec/30_encoding.md rules R48, R49): how each unit reads the bits on its input port.

ENC16 needs no definition: the 16 bits on `ENC.lin_in` ARE the operand, one two's-complement integer used at its full width,
with no immediate, scaling, shift or extension (rule R48); its value is `lin_in.toInt` (rule R41).
DEC8 is the unmasking and the field split below (rules R49, R81, R82).
There is no other form: no register, memory, packed or prefixed operand (rules R11, R26, R36, R52).
-/

namespace Sys2Proof.Machine

/-- Form DEC8, first part (rule R81): undo the mask.  `t` is the pre-mask codeword. -/
def Dec.t (cwIn : Codeword) : Codeword := cwIn ^^^ Config.mask

/-- Rule R82: `dsign = t[7]`. -/
def Dec.dsign (t : Codeword) : Sign := t.extractLsb' 7 1

/-- Rule R82: `dseg = t[6:4]`. -/
def Dec.dseg (t : Codeword) : Segment := t.extractLsb' 4 3

/-- Rule R82: `dmant = t[3:0]`. -/
def Dec.dmant (t : Codeword) : Mantissa := t.extractLsb' 0 4

end Sys2Proof.Machine
end

