-- ==== Sys2Proof/Machine/Flags.lean ====
section
/-!
DEFINITION. One-bit conditions.  The hardware has NO flag, condition code or predicate register (spec/10_state.md rule
R13): no operation writes one, and saturation leaves no trace (rule R121).  What is here are the one-bit WIRES of rule R17
on which a unit's own selections depend (rule R54).
-/

namespace Sys2Proof.Machine

/-- Rule R61: `sign = ~lin_in[15]`, 1 for a sample that is not negative. -/
def Enc.sign (linIn : LinearSample) : Sign := ~~~(linIn.extractLsb' 15 1)

/-- Rule R64: `small = (u(mag) < SMALL_LIMIT)`. -/
def Enc.small (lim : SmallLimit) (mag : Magnitude) : Bool := decide (mag.toNat < lim.value)

/-- Rule R83: `lead = (dseg != 0)`, the leading one that Segments 1 to 7 restore. -/
def Dec.lead (dseg : Segment) : BitVec 1 := if dseg = 0#3 then 0#1 else 1#1

end Sys2Proof.Machine
end

