-- ==== Sys2Proof/Machine/DecUnit.lean ====
section
/-!
DEFINITION. The decoder unit DEC, stage by stage (spec/41_decoder.md rules R80 to R86): each definition is one named
signal of spec/10_state.md rule R17.  Rules R81 and R82 (the mask and the field split) are in Machine/Operands.lean, the
`lead` of rule R83 in Machine/Flags.lean.  `SMALL_LIMIT` does not enter (rule R92).
-/

namespace Sys2Proof.Machine

/-- Rule R83, segment-to-exponent decoder: `shamt = (dseg == 0) ? 0 : dseg - 1`, in [0, 6]. -/
def Dec.shamt (dseg : Segment) : BitVec 3 := if dseg = 0#3 then 0#3 else dseg - 1#3

/-- Rule R84, mantissa-to-step multiplier: `base = (lead, dmant, 1)` side by side, 6 bits, always odd. -/
def Dec.base (lead : BitVec 1) (dmant : Mantissa) : BitVec 6 := lead ++ dmant ++ 1#1

/-- Rule R85, magnitude reconstruction: `rmag = base << shamt` at 12 bits. -/
def Dec.rmag (base : BitVec 6) (shamt : BitVec 3) : Magnitude := base.setWidth 12 <<< shamt.toNat

/-- Rule R86, sign restoration: `(dsign == 1) ? zext_16(rmag) : neg_16(zext_16(rmag))`. -/
def Dec.restore (dsign : Sign) (rmag : Magnitude) : LinearSample :=
  if dsign = 1#1 then rmag.setWidth 16 else -(rmag.setWidth 16)

/-- The signal `rmag` as a function of the pre-mask codeword `t`. -/
def Dec.rmagOf (t : Codeword) : Magnitude :=
  Dec.rmag (Dec.base (Dec.lead (Dec.dseg t)) (Dec.dmant t)) (Dec.shamt (Dec.dseg t))

/-- Rule R80, the whole of DECODE: the value on `DEC.lin_out[15:0]` when `cw_in` stands on `DEC.cw_in[7:0]`. -/
def Dec.linOut (cwIn : Codeword) : LinearSample :=
  Dec.restore (Dec.dsign (Dec.t cwIn)) (Dec.rmagOf (Dec.t cwIn))

end Sys2Proof.Machine
end

