-- ==== Sys2Proof/Machine/EncUnit.lean ====
section
/-!
DEFINITION. The encoder unit ENC, stage by stage (spec/40_encoder.md rules R60 to R68): each definition is one named
signal of spec/10_state.md rule R17, a function of the signals its rule names as operands.
-/

namespace Sys2Proof.Machine

/-- Rule R62, sign handler: the absolute value, `(lin_in[15] == 1) ? neg_16(lin_in) : lin_in`, read unsigned, so that
-32768 has the magnitude 32768 (D4). -/
def Enc.magRaw (linIn : LinearSample) : MagRaw := if linIn.getLsbD 15 then -linIn else linIn

/-- Rule R63, magnitude clamp: `(u(mag_raw) > 4095) ? 4095 : mag_raw[11:0]`. -/
def Enc.mag (magRaw : MagRaw) : Magnitude :=
  if Config.magMax.toNat < magRaw.toNat then Config.magMax else magRaw.extractLsb' 0 12

/-- The highest position at most `n` at which `v` has a set bit ("highest set bit wins"); 0 when there is none above
position 0. -/
def Enc.msbFrom (v : Magnitude) : Nat → Nat
  | 0 => 0
  | n + 1 => if v.getLsbD (n + 1) then n + 1 else Enc.msbFrom v n

/-- `msb(v)` of rule R8 for a 12-bit `v` that is not 0: the position of its most significant set bit. -/
def Enc.msb (v : Magnitude) : BitVec 4 := BitVec.ofNat 4 (Enc.msbFrom v 11)

/-- Rule R65: `p = msb(mag)` in the general case.  Rule R17 gives `p` a meaning only when `small = 0`; in the
small-magnitude case there is no position (notes/assumptions/10.md). -/
def Enc.p (lim : SmallLimit) (mag : Magnitude) : Option (BitVec 4) :=
  if Enc.small lim mag then none else some (Enc.msb mag)

/-- Rules R64, R65, segment detector: `seg = (small == 1) ? 0 : p - 4`. -/
def Enc.seg (lim : SmallLimit) (mag : Magnitude) : Segment :=
  match Enc.p lim mag with
  | none => 0#3
  | some p => (p - Config.windowLow).setWidth 3

/-- Rule R66, mantissa quantizer: `(mag >> 1)[3:0]` in the small case, `(mag >> seg) & 0xF` otherwise.  It truncates. -/
def Enc.mant (lim : SmallLimit) (mag : Magnitude) : Mantissa :=
  if Enc.small lim mag then (mag >>> 1).setWidth 4
  else ((mag >>> (Enc.seg lim mag).toNat) &&& 0xF#12).setWidth 4

/-- Rule R67, codeword assembly: `cw_pre = (sign, seg, mant)` side by side, `sign` most significant. -/
def Enc.assemble (sign : Sign) (seg : Segment) (mant : Mantissa) : Codeword := sign ++ seg ++ mant

/-- Rule R68, XOR inverter: `cw_out = cw_pre ^ 0x55`. -/
def Enc.invert (cwPre : Codeword) : Codeword := cwPre ^^^ Config.mask

/-- The signal `mag` as a function of the input port. -/
def Enc.magOf (linIn : LinearSample) : Magnitude := Enc.mag (Enc.magRaw linIn)

/-- The signal `cw_pre` as a function of the input port. -/
def Enc.cwPre (lim : SmallLimit) (linIn : LinearSample) : Codeword :=
  Enc.assemble (Enc.sign linIn) (Enc.seg lim (Enc.magOf linIn)) (Enc.mant lim (Enc.magOf linIn))

/-- Rule R60, the whole of ENCODE: the value on `ENC.cw_out[7:0]` when `lin_in` stands on `ENC.lin_in[15:0]`. -/
def Enc.cwOut (lim : SmallLimit) (linIn : LinearSample) : Codeword := Enc.invert (Enc.cwPre lim linIn)

end Sys2Proof.Machine
end

