-- ==== Sys2Proof/Machine/State.lean ====
section
/-!
DEFINITION. The machine's state as plain data, the reasons a step can stop, and the state at reset.

THE HARDWARE ITSELF HAS NO STATE (spec/10_state.md rules R10 to R19): no register, program counter, flag, control
register, memory or hidden history, and the named internal signals of rule R17 are wires, computed where they are used
(Machine/Flags.lean, Operands.lean, EncUnit.lean, DecUnit.lean).  What `State` holds is what stands AROUND the two
combinational units while a host uses them: the design parameter, the level on each input port (rule R16), and the host's
two sequences of rule R131: the operands not yet presented and the results collected so far.  The output ports are not
stored: each IS the unit's function of its input port (Machine/Ops.lean).
-/

namespace Sys2Proof.Machine

/-- The hardware's exceptions: there are none.  "The complete table of exception causes is empty" (spec/60_exceptions.md
rule R120), so this type has no constructor and no step can answer a fault. -/
inductive Fault where
deriving DecidableEq, Repr

/-- Reasons to give an instruction no meaning. -/
inductive Refusal where
  /-- Raised by an arm of `exec` whose instruction has no meaning yet, and by nothing else.  Both instructions have their
  meaning, so nothing raises it (rule R120: a step is never refused).  Safe. -/
  | notModelled (mnemonic : String)
deriving DecidableEq, Repr

/-- One ENC unit and one DEC unit in use by a host (notes/assumptions/1.md, 8.md). -/
structure State where
  /-- The design parameter `SMALL_LIMIT` (rule R6).  Fixed per design: no step writes it. -/
  config : Config
  /-- The level on `ENC.lin_in[15:0]` (rule R16): the operand last presented to ENC. -/
  linIn : LinearSample
  /-- The level on `DEC.cw_in[7:0]` (rule R16): the operand last presented to DEC. -/
  cwIn : Codeword
  /-- The host's operands still to be presented, the next one first (rules R53, R131). -/
  pending : List PortWord
  /-- The results the host has collected, "in input order, 1:1", the earliest first (rules R32, R131, R146). -/
  results : List PortResult
deriving DecidableEq, Repr

/-- There is nothing to reset (rules R20, R140).  The parameter has the spec's value (D1), no transaction has been asked
for and no result collected; the two input levels are zero, which the spec does not say (notes/assumptions/3.md,
DESIGN CHOICE). -/
def State.reset : State :=
  { config := Config.spec
    linIn := 0#16
    cwIn := 0#8
    pending := []
    results := [] }

end Sys2Proof.Machine
end

