-- ==== Sys2Proof/Machine/Ops.lean ====
section
/-!
DEFINITION. The named operations over the ports and the host's two sequences (spec/10_state.md rule R16,
spec/60_exceptions.md rule R131).  Every read and write of a port goes through these.

There is no operation that takes an exception and none that returns from one: no trap is ever entered, nothing is saved
and nothing restored (rules R120, R122, R124, R125).  There is none over memory: the hardware has no memory and computes
no address (rule R25).
-/

namespace Sys2Proof.Machine

/-! ## The ports -/

/-- The host drives `ENC.lin_in` with an operand, whole (rules R26, R131).  "Presenting an operand has no side effect"
(rule R30): nothing else changes. -/
def State.driveLinIn (s : State) (v : LinearSample) : State := { s with linIn := v }

/-- The host drives `DEC.cw_in` with an operand, whole (rules R26, R131). -/
def State.driveCwIn (s : State) (v : Codeword) : State := { s with cwIn := v }

/-- The output port `ENC.cw_out[7:0]`: "at every instant `ENC.cw_out = ENCODE(ENC.lin_in)`" (rule R16). -/
def State.cwOut (s : State) : Codeword := Enc.cwOut s.config.smallLimit s.linIn

/-- The output port `DEC.lin_out[15:0]`: "at every instant `DEC.lin_out = DECODE(DEC.cw_in)`" (rule R16). -/
def State.linOut (s : State) : LinearSample := Dec.linOut s.cwIn

/-! ## The host's sequences -/

/-- The host takes one result; results are kept "in input order" (rules R32, R131). -/
def State.collect (s : State) (r : PortResult) : State := { s with results := s.results ++ [r] }

/-- The host puts one operand in front of all that are waiting: it is the next to be presented. -/
def State.present (s : State) (pw : PortWord) : State := { s with pending := pw :: s.pending }

/-- The host adds a stream of operands, or a chunk of one, after those that are waiting (rules R36, R131). -/
def State.load (s : State) (stream : List PortWord) : State := { s with pending := s.pending ++ stream }

/-- The next operand to be presented and the state without it; `none` when the host has asked for nothing more. -/
def State.fetch (s : State) : Option (PortWord × State) :=
  match s.pending with
  | [] => none
  | pw :: rest => some (pw, { s with pending := rest })

end Sys2Proof.Machine
end

