-- ==== Sys2Proof/Machine/Codec.lean ====
section
/-!
DEFINITION. The meanings of the two instructions, each one transaction: the operand is presented whole on the unit's input
port, the unit's output port carries the function of it (rule R16), and the host collects that value.  A transaction is
indivisible and has no other effect (rule R30); it raises no exception on any operand (rule R120).
-/

namespace Sys2Proof.Machine

/-- `ENCODE` (spec/40_encoder.md rule R60): unit ENC. -/
def execEncode (linIn : LinearSample) (s : State) : Host.Outcome State Fault Refusal :=
  .next ((s.driveLinIn linIn).collect (.cwOut (s.driveLinIn linIn).cwOut))

/-- `DECODE` (spec/41_decoder.md rule R80): unit DEC. -/
def execDecode (cwIn : Codeword) (s : State) : Host.Outcome State Fault Refusal :=
  .next ((s.driveCwIn cwIn).collect (.linOut (s.driveCwIn cwIn).linOut))

end Sys2Proof.Machine
end

