-- ==== Sys2Proof/Machine/Dispatch.lean ====
section
/-!
DEFINITION. One arm per row of spec/opcode_table.json.
-/

namespace Sys2Proof.Machine

/-- One transaction on the unit that the instruction names. -/
def exec (i : Instr) (s : State) : Host.Outcome State Fault Refusal :=
  match i with
  | .encode linIn => Sys2Proof.Machine.execEncode linIn s
  | .decode cwIn => Sys2Proof.Machine.execDecode cwIn s

end Sys2Proof.Machine
end

