-- ==== Sys2Proof/Machine/Step.lean ====
section
/-!
DEFINITION. One step is one transaction: the host's next operand is presented on its port, the unit of that port performs
its operation, the host collects the result (spec/20_memory.md rule R32, spec/70_reset_and_hazards.md rule R146).  The
hardware has no program counter and fetches nothing (rule R12); what takes the place of a fetch is the host's choice of the
next operand (rule R131, notes/assumptions/1.md).
-/

namespace Sys2Proof.Machine

/-- With no operand waiting, nothing happens: the units hold no state that could change (rule R10,
notes/assumptions/2.md). -/
def step (s : State) : Host.Outcome State Fault Refusal :=
  match s.fetch with
  | none => .next s
  | some (pw, s') => exec (decodePort pw) s'

/-- The bits `w` of a table row of `nbits` bits, put where `step` takes its next operand.  Bits that are no operand of
either port are not presented at all. -/
def State.withFetchWord (s : State) (nbits w : Nat) : State :=
  match portWordOfBits nbits w with
  | .ok pw => s.present pw
  | .error _ => s

end Sys2Proof.Machine
end

