-- ==== Sys2Proof/Safety.lean ====
section
/-!
DEFINITION. What a run is and what counts as a safe one (spec/70_reset_and_hazards.md rule R146, spec/60_exceptions.md rule
R120), and the terms in which claims about one, two or three transactions in a row are stated.
-/

namespace Sys2Proof.Machine

/-- `k` steps, stopping at the first fault or refusal: `Host.Core.run` of `Sys2Proof.core` (Laws/Run.lean), over the model's
own types. -/
def run : Nat → State → Host.Outcome State Fault Refusal
  | 0, s => .next s
  | k + 1, s =>
    match step s with
    | .next s' => run k s'
    | .fault r => .fault r
    | .refused r => .refused r

/-- A run of rule R146: every operand the host has chosen is presented in its order, and the last result collected. -/
def runAll (s : State) : Host.Outcome State Fault Refusal := run s.pending.length s

/-- The host hands its stream over in chunks and lets each chunk run to its end before the next (rule R36). -/
def runChunks : List (List PortWord) → State → Host.Outcome State Fault Refusal
  | [], s => .next s
  | chunk :: rest, s =>
    match runAll (s.load chunk) with
    | .next s' => runChunks rest s'
    | .fault r => .fault r
    | .refused r => .refused r

/-- A safe state: however many steps are taken from it, none stops (rule R120: no fault outcome, no refusal outcome). -/
def Safe (s : State) : Prop := ∀ k, ∃ t, run k s = .next t

/-- In state `s`, the transaction that presents `pw` is performed by the next step, ends in `t`, and `r` is the one result
it hands to the host. -/
def Gives (s : State) (pw : PortWord) (r : PortResult) (t : State) : Prop :=
  step (s.present pw) = .next t ∧ t.results = s.results ++ [r]

/-- Two transactions in a row, the host feeding the first's result to the second (rules R53, R142): ENCODE turns `x` into
`c`, DECODE turns `c` into `y`, and the state is then `t`. -/
def RoundTrip (s : State) (x : LinearSample) (c : Codeword) (y : LinearSample) (t : State) : Prop :=
  ∃ u, Gives s (.linIn x) (.cwOut c) u ∧ Gives u (.cwIn c) (.linOut y) t

end Sys2Proof.Machine
end

