-- ==== Sys2Proof/Certificates/Slice0/Obligations.lean ====
section
/-!
DEFINITION. Statements for the provers.  Each docstring names the rule of the spec that the statement formalises.

`Sys2Proof.Spec` holds the spec's arithmetic readings (integers, floor division and base-2 logarithm: rules R44, R69, R72,
R87), written without the model's bit-vector signals, so that a statement compares two different ways of saying the same
thing.
-/

namespace Sys2Proof.Spec

open Sys2Proof.Machine

/-- The clamped Magnitude of a sample (rules R42, R63). -/
def magnitude (x : LinearSample) : Nat := min x.toInt.natAbs 4095

/-- The Sign of a sample: 1 when it is not negative (rule R43). -/
def signOf (x : LinearSample) : Nat := if 0 ≤ x.toInt then 1 else 0

/-- The Segment of a Magnitude `m` under the threshold `lim` (rules R64, R65): "standard floor-log2 semantics". -/
def segmentOf (lim m : Nat) : Nat := if m < lim then 0 else Nat.log2 m - 4

/-- The Mantissa of a Magnitude `m` under the threshold `lim` (rule R66). -/
def mantissaOf (lim m : Nat) : Nat := if m < lim then m / 2 else m / 2 ^ segmentOf lim m % 16

/-- The pre-mask codeword as a number (rule R67): `128*sign + 16*seg + mant`. -/
def preMask (lim : Nat) (x : LinearSample) : Nat :=
  128 * signOf x + 16 * segmentOf lim (magnitude x) + mantissaOf lim (magnitude x)

/-- ENCODE in arithmetic (rule R60). -/
def codeword (lim : SmallLimit) (x : LinearSample) : Codeword := BitVec.ofNat 8 (preMask lim.value x) ^^^ 0x55#8

/-- The pre-mask value of a transmitted Codeword (rule R81), as a number. -/
def unmask (c : Codeword) : Nat := (c ^^^ 0x55#8).toNat

/-- The Sign, Segment and Mantissa fields of a transmitted Codeword (rules R46, R82). -/
def signField (c : Codeword) : Nat := unmask c / 128
def segField (c : Codeword) : Nat := unmask c / 16 % 8
def mantField (c : Codeword) : Nat := unmask c % 16

/-- The width of the cells of Segment `k` (rules R44, R87). -/
def cellWidth (k : Nat) : Nat := if k = 0 then 2 else 2 ^ k

/-- The lowest magnitude of the cell of Segment `k` and Mantissa `m` (rules R69, R87). -/
def cellLow (k m : Nat) : Nat := if k = 0 then 2 * m else 2 ^ (k + 4) + m * 2 ^ k

/-- The largest quantization error in Segment `k` (rule R102). -/
def maxErr (k : Nat) : Nat := cellWidth k / 2

/-- The magnitude that DECODE reconstructs from a Segment and a Mantissa (rules R83 to R85): no leading one and no shift in
Segment 0, else `0x21 | (mant << 1)` shifted left by `seg - 1`. -/
def reconstruct (k m : Nat) : Nat := if k = 0 then 2 * m + 1 else (32 + 2 * m + 1) * 2 ^ (k - 1)

/-- DECODE in arithmetic (rule R80). -/
def sampleOf (c : Codeword) : Int :=
  if signField c = 1 then (reconstruct (segField c) (mantField c) : Int) else -(reconstruct (segField c) (mantField c) : Int)

/-- The result that belongs to an operand (rules R60, R80). -/
def resultOf (lim : SmallLimit) : PortWord → PortResult
  | .linIn x => .cwOut (codeword lim x)
  | .cwIn c => .linOut (BitVec.ofInt 16 (sampleOf c))

/-- The whole effect of an ENCODE transaction that returns `c`: the operand stands on `ENC.lin_in`, the result is collected,
and nothing else is different. -/
def afterEncode (s : State) (x : LinearSample) (c : Codeword) : State :=
  { s with linIn := x, results := s.results ++ [.cwOut c] }

/-- The whole effect of a DECODE transaction that returns `y`. -/
def afterDecode (s : State) (c : Codeword) (y : LinearSample) : State :=
  { s with cwIn := c, results := s.results ++ [.linOut y] }

/-- The invariant of the collected samples (rule R88): each has one of the 128 reconstructed magnitudes of rule R44, so none
is 0 and none leaves [-4032, 4032]. -/
def SamplesInImage (s : State) : Prop :=
  ∀ y, PortResult.linOut y ∈ s.results →
    (∃ k m, k < 8 ∧ m < 16 ∧ y.toInt.natAbs = cellLow k m + cellWidth k / 2) ∧ y ≠ 0#16 ∧ y.toInt.natAbs ≤ 4032

/-- One row of the table of rule R70. -/
structure EncRow where
  linIn : LinearSample
  sign : Sign
  magRaw : MagRaw
  mag : Magnitude
  seg : Segment
  mant : Mantissa
  cwPre : Codeword
  cwOut : Codeword

/-- The table of rule R70. -/
def encRows : List EncRow :=
  [ ⟨0, 1, 0, 0, 0, 0, 0x80, 0xD5⟩,
    ⟨1, 1, 1, 1, 0, 0, 0x80, 0xD5⟩,
    ⟨0xFFFF, 0, 1, 1, 0, 0, 0x00, 0x55⟩,
    ⟨31, 1, 31, 31, 0, 15, 0x8F, 0xDA⟩,
    ⟨32, 1, 32, 32, 1, 0, 0x90, 0xC5⟩ ] ++
  [ ⟨4095, 1, 4095, 4095, 7, 15, 0xFF, 0xAA⟩,
    ⟨4096, 1, 4096, 4095, 7, 15, 0xFF, 0xAA⟩,
    ⟨0x7FFF, 1, 32767, 4095, 7, 15, 0xFF, 0xAA⟩,
    ⟨0x8001, 0, 32767, 4095, 7, 15, 0x7F, 0x2A⟩,
    ⟨0x8000, 0, 32768, 4095, 7, 15, 0x7F, 0x2A⟩ ]

/-- One row of the table of rule R89. -/
structure DecRow where
  cwIn : Codeword
  t : Codeword
  dsign : Sign
  dseg : Segment
  dmant : Mantissa
  lead : BitVec 1
  shamt : BitVec 3
  base : BitVec 6
  rmag : Magnitude
  linOut : LinearSample

/-- The table of rule R89. -/
def decRows : List DecRow :=
  [ ⟨0xD5, 0x80, 1, 0, 0, 0, 0, 1, 1, 0x0001⟩,
    ⟨0x55, 0x00, 0, 0, 0, 0, 0, 1, 1, 0xFFFF⟩,
    ⟨0xDA, 0x8F, 1, 0, 15, 0, 0, 31, 31, 31⟩,
    ⟨0xC5, 0x90, 1, 1, 0, 1, 0, 33, 33, 33⟩,
    ⟨0xF5, 0xA0, 1, 2, 0, 1, 1, 33, 66, 66⟩ ] ++
  [ ⟨0xAA, 0xFF, 1, 7, 15, 1, 6, 63, 4032, 0x0FC0⟩,
    ⟨0x2A, 0x7F, 0, 7, 15, 1, 6, 63, 4032, 0xF040⟩,
    ⟨0x00, 0x55, 0, 5, 5, 1, 4, 43, 688, 0xFD50⟩,
    ⟨0xFF, 0xAA, 1, 2, 10, 1, 1, 53, 106, 0x006A⟩,
    ⟨0x80, 0xD5, 1, 5, 5, 1, 4, 43, 688, 0x02B0⟩ ]

/-- How many samples receive the Codeword `c` (rule R72). -/
def preimageCount (c : Codeword) : Nat :=
  if segField c ≤ 1 then (if c = 0x55#8 then 1 else 2)
  else if segField c = 7 ∧ mantField c = 15 then (if signField c = 1 then 28800 else 28801)
  else 2 ^ segField c

end Sys2Proof.Spec

open Sys2Proof Sys2Proof.Machine Sys2Proof.Spec

/-! ## Reset, stepping, encoding -/

/-- Rules R6, R20, R140: nothing is asked for and nothing collected at reset, and the design parameter has the spec's value
32.  That the input levels are zero is the model's choice (notes/assumptions/3.md). -/
def Obligations.ResetHoldsNothing : Prop :=
  State.reset.config.smallLimit = .lim32 ∧ State.reset.pending = [] ∧ State.reset.results = [] ∧
    State.reset.linIn = 0#16 ∧ State.reset.cwIn = 0#8

/-- Rules R12, R40, R131, in the model's terms (notes/assumptions/1.md, 2.md): a step performs the transaction that the
host's next operand stands for, on the state without that operand; a table word that the decoder reads is performed by the
very next step; with nothing to present a step changes nothing. -/
def Obligations.StepRunsPresentedTransaction : Prop :=
  (∀ s pw rest, s.pending = pw :: rest → step s = exec (decodePort pw) { s with pending := rest }) ∧
  (∀ s nbits w i, decodeTableWord nbits w = some i → step (s.withFetchWord nbits w) = exec i s) ∧
  (∀ s, s.pending = [] → step s = .next s)

/-- Rules R40, R53 (opcode table rows ENC16 and DEC8): patterns as the spec's programs P1 to P3 write them.  Reading a bare
pattern by its width, and so the last two clauses (a 12-bit pattern and the number 0x100 at 8 bits decode to nothing), is the
model's choice, notes/assumptions/6.md. -/
def Obligations.TablePatternsDecode : Prop :=
  decodeTableWord 16 0x00B5 = some (.encode 181#16) ∧
  decodeTableWord 16 0xFF4B = some (.encode (BitVec.ofInt 16 (-181))) ∧
  decodeTableWord 16 0x8000 = some (.encode (BitVec.ofInt 16 (-32768))) ∧
  decodeTableWord 8 0xE3 = some (.decode 0xE3#8) ∧
  decodeTableWord 8 0x2A = some (.decode 0x2A#8) ∧
  decodeTableWord 12 0x2A = none ∧ decodeTableWord 8 0x100 = none

/-- Rules R40, R53: encoding and decoding agree in both directions, on every operand, and what is rejected is exactly what no
port can carry (reading a bare pattern by its width is the model's, notes/assumptions/6.md). -/
def Obligations.DecodeIsInverseOfEncode : Prop :=
  (∀ i, decodeTableWord (encodeTableWord i).1 (encodeTableWord i).2 = some i) ∧
  (∀ i, decodePort (encodePort i) = i) ∧ (∀ pw, encodePort (decodePort pw) = pw) ∧
  (∀ nbits w i, decodeTableWord nbits w = some i → encodeTableWord i = (nbits, w)) ∧
  (∀ nbits w, decodeTableWord nbits w = none ↔ bitsWf nbits w = false)

/-- Rule R50: whatever stands on a unit's input port is a legal operand of that unit's operation, never invalid, and runs to
a result in range on every state; none traps. -/
def Obligations.EveryOperandIsLegal : Prop :=
  (∀ x : LinearSample, decodePort (.linIn x) = .encode x ∧ (Instr.encode x).wf = true ∧
    ∀ s, ∃ t c, exec (.encode x) s = .next t ∧ t.results = s.results ++ [.cwOut c] ∧ c.toNat ≤ 255) ∧
  (∀ c : Codeword, decodePort (.cwIn c) = .decode c ∧ (Instr.decode c).wf = true ∧
    ∀ s, ∃ t y, exec (.decode c) s = .next t ∧ t.results = s.results ++ [.linOut y] ∧
      -32768 ≤ y.toInt ∧ y.toInt ≤ 32767)

/-- Rule R53 (its notation is the spec's own, D7): a line in range is the transaction whose operand has that value or that
pattern, a line out of range is none. -/
def Obligations.NotationReadsLiterals : Prop :=
  (∀ n : Int, -32768 ≤ n → n ≤ 32767 → ∃ x, assemble (.encInt n) = some (.encode x) ∧ x.toInt = n) ∧
  (∀ n : Int, n < -32768 ∨ 32767 < n → assemble (.encInt n) = none) ∧
  (∀ v, v < 0x10000 → ∃ x, assemble (.encHex v) = some (.encode x) ∧ x.toNat = v) ∧
  (∀ v, 0x10000 ≤ v → assemble (.encHex v) = none) ∧
  (∀ n : Int, 0 ≤ n → n ≤ 255 → ∃ c, assemble (.decInt n) = some (.decode c) ∧ (c.toNat : Int) = n) ∧
  (∀ n : Int, n < 0 ∨ 255 < n → assemble (.decInt n) = none) ∧
  (∀ v, v < 0x100 → ∃ c, assemble (.decHex v) = some (.decode c) ∧ c.toNat = v) ∧
  (∀ v, 0x100 ≤ v → assemble (.decHex v) = none)

/-! ## The two operations, whole -/

/-- Rule R60, in arithmetic: ENCODE completes on every operand and state, for both values of `SMALL_LIMIT`, with the Codeword
the rule gives; the whole next state is given, so nothing else changes.  (That the operand stays on the port and the host's
list grows by the result is how the model holds a transaction, notes/assumptions/4.md, 12.md.) -/
def Obligations.EncodeResult : Prop :=
  (∀ s x, exec (.encode x) s = .next (afterEncode s x (codeword s.config.smallLimit x))) ∧
  (∀ s, exec (.encode 181#16) s = .next (afterEncode s 181#16 0xE3#8))

/-- Rule R80, in arithmetic: DECODE completes on every operand and state, with the sample the rule gives; the whole next state
is given, so nothing else changes.  (The port level and the host's list: notes/assumptions/4.md, 12.md.) -/
def Obligations.DecodeResult : Prop :=
  (∀ s c, ∃ y, exec (.decode c) s = .next (afterDecode s c y) ∧ y.toInt = sampleOf c) ∧
  (∀ s, exec (.decode 0xE3#8) s = .next (afterDecode s 0xE3#8 180#16))

/-- Rule R71: ENCODE has no side effect, no failure and no history.  The clauses about the port levels after the transaction
(`linIn`, `cwIn`, `linOut`) rest on the model's choice that a port keeps its last operand, notes/assumptions/4.md. -/
def Obligations.EncodeHasNoSideEffect : Prop :=
  ∀ s x, ∃ t c, exec (.encode x) s = .next t ∧ t.results = s.results ++ [.cwOut c] ∧ t.linIn = x ∧
    t.config = s.config ∧ t.cwIn = s.cwIn ∧ t.linOut = s.linOut ∧ t.pending = s.pending ∧
    ∀ s', s'.config = s.config → ∃ t', exec (.encode x) s' = .next t' ∧ t'.results = s'.results ++ [.cwOut c]

/-- Rule R91: DECODE has no side effect, no failure and no history.  The clauses about the port levels after the transaction
(`cwIn`, `linIn`, `cwOut`) rest on the model's choice that a port keeps its last operand, notes/assumptions/4.md. -/
def Obligations.DecodeHasNoSideEffect : Prop :=
  ∀ s c, ∃ t y, exec (.decode c) s = .next t ∧ t.results = s.results ++ [.linOut y] ∧ t.cwIn = c ∧
    t.config = s.config ∧ t.linIn = s.linIn ∧ t.cwOut = s.cwOut ∧ t.pending = s.pending ∧
    ∀ s', ∃ t', exec (.decode c) s' = .next t' ∧ t'.results = s'.results ++ [.linOut y]

/-- Rule R92: DECODE does not depend on `SMALL_LIMIT`, and Segment 0 decodes to the sixteen odd magnitudes 1, 3, ..., 31. -/
def Obligations.DecodeIgnoresSmallLimit : Prop :=
  (∀ s lim c, ∃ y, exec (.decode c) s = .next (afterDecode s c y) ∧
    exec (.decode c) { s with config := { smallLimit := lim } } =
      .next (afterDecode { s with config := { smallLimit := lim } } c y)) ∧
  (∀ c, segField c = 0 → (Dec.linOut c).toInt.natAbs = 2 * mantField c + 1)

/-- Rule R16: at every instant each output port carries its unit's function of the input port, in arithmetic. -/
def Obligations.OutputPortsFollowInputPorts : Prop :=
  ∀ s : State, s.cwOut = codeword s.config.smallLimit s.linIn ∧ s.linOut.toInt = sampleOf s.cwIn

/-! ## The encoder's stages -/

/-- Rule R61: the Sign bit. -/
def Obligations.SignHandlerSign : Prop :=
  (∀ x : LinearSample, (Enc.sign x).getLsbD 0 = !x.getLsbD 15 ∧
    (Enc.sign x = 1#1 ↔ 0 ≤ x.toInt) ∧ (Enc.sign x = 0#1 ↔ x.toInt < 0)) ∧
  Enc.sign 0#16 = 1#1 ∧ Enc.sign 0x8000#16 = 0#1 ∧ Enc.sign 0xFF4B#16 = 0#1

/-- Rule R62 with its unsigned reading (D4): `u(mag_raw)` is the absolute value of every sample, -32768 included. -/
def Obligations.SignHandlerAbsoluteValue : Prop :=
  (∀ x : LinearSample, (Enc.magRaw x).toNat = x.toInt.natAbs ∧ (Enc.magRaw x).toNat ≤ 32768 ∧
    (0 ≤ x.toInt → (Enc.magRaw x).toNat ≤ 32767)) ∧
  Enc.magRaw 0x8000#16 = 0x8000#16 ∧ Enc.magRaw 0#16 = 0#16 ∧ Enc.magRaw 0xFF4B#16 = 181#16

/-- Rule R63: the clamp, its gate-level form, and the top cell it fills. -/
def Obligations.MagnitudeClampSaturates : Prop :=
  (∀ r : MagRaw, (Enc.mag r).toNat = min r.toNat 4095 ∧ (4095 < r.toNat ↔ r.extractLsb' 12 4 ≠ 0#4)) ∧
  (∀ (x : LinearSample) lim, 3968 ≤ x.toInt.natAbs →
    Enc.seg lim (Enc.magOf x) = 7#3 ∧ Enc.mant lim (Enc.magOf x) = 15#4) ∧
  Enc.mag 4095#16 = 4095#12 ∧ Enc.mag 4096#16 = 4095#12 ∧ Enc.mag 32767#16 = 4095#12 ∧
  Enc.mag 32768#16 = 4095#12 ∧ Enc.mag 12345#16 = 4095#12

/-- Rule R64 (the threshold's value 32 is D1): the small-magnitude case. -/
def Obligations.SmallMagnitudeCase : Prop :=
  (∀ lim mag, (Enc.small lim mag = true ↔ mag.toNat < lim.value) ∧
    (mag.toNat < lim.value → Enc.seg lim mag = 0#3 ∧ Enc.mant lim mag = mag.extractLsb' 1 4)) ∧
  (∀ mag, Enc.small .lim32 mag = true ↔ mag.extractLsb' 5 7 = 0#7) ∧
  Enc.mant .lim32 0#12 = 0#4 ∧ Enc.mant .lim32 31#12 = 15#4 ∧ Enc.mant .lim32 3#12 = 1#4 ∧
  Enc.small .lim32 32#12 = false ∧ Enc.seg .lim32 32#12 = 1#3 ∧ Enc.mant .lim32 32#12 = 0#4

/-- Rule R65: the segment detector in the general case, for both thresholds. -/
def Obligations.SegmentDetectorFindsHighestBit : Prop :=
  (∀ lim mag, Enc.small lim mag = false → ∃ p, Enc.p lim mag = some p ∧
    2 ^ p.toNat ≤ mag.toNat ∧ mag.toNat < 2 ^ (p.toNat + 1) ∧
    4 ≤ p.toNat ∧ p.toNat ≤ 11 ∧ (lim = .lim32 → 5 ≤ p.toNat) ∧ (Enc.seg lim mag).toNat = p.toNat - 4) ∧
  (∀ mag, Enc.small .lim32 mag = false → Enc.seg .lim32 mag ≠ 0#3) ∧
  (∀ lim k, lim.value ≤ 2 ^ k → k ≤ 11 →
    (Enc.seg lim (BitVec.ofNat 12 (2 ^ k))).toNat = k - 4 ∧ Enc.mant lim (BitVec.ofNat 12 (2 ^ k)) = 0#4) ∧
  (∀ lim, Enc.p lim 4095#12 = some 11#4 ∧ Enc.seg lim 4095#12 = 7#3) ∧
  (∀ lim, Enc.p lim 1910#12 = some 10#4 ∧ Enc.seg lim 1910#12 = 6#3)

/-- Rule R66: the mantissa quantizer truncates. -/
def Obligations.MantissaQuantizerTruncates : Prop :=
  (∀ lim mag, Enc.small lim mag = true →
    Enc.mant lim mag = mag.extractLsb' 1 4 ∧ (Enc.mant lim mag).toNat = mag.toNat / 2) ∧
  (∀ lim mag, Enc.small lim mag = false →
    (Enc.mant lim mag).toNat = mag.toNat / 2 ^ (Enc.seg lim mag).toNat % 16 ∧
    Enc.mant lim mag = mag.extractLsb' (Enc.seg lim mag).toNat 4) ∧
  (∀ m : Mantissa, ∃ mag, Enc.small .lim32 mag = true ∧ Enc.mant .lim32 mag = m) ∧
  (∀ m : Mantissa, (∃ mag, Enc.small .lim16 mag = true ∧ Enc.mant .lim16 mag = m) ↔ m.toNat ≤ 7) ∧
  (∀ lim mag, Enc.seg lim mag = 1#3 → Enc.mant lim mag = mag.extractLsb' 1 4) ∧
  (∀ lim, Enc.mant lim 4095#12 = 15#4) ∧ (∀ lim, Enc.mant lim 1910#12 = 13#4)

/-- Rule R67: the three fields side by side; OR and concatenation agree. -/
def Obligations.CodewordAssemblyIsConcatenation : Prop :=
  (∀ sign seg mant, (Enc.assemble sign seg mant).toNat = 128 * sign.toNat + 16 * seg.toNat + mant.toNat ∧
    Enc.assemble sign seg mant = (sign.setWidth 8 <<< 7) ||| (seg.setWidth 8 <<< 4) ||| mant.setWidth 8) ∧
  Enc.assemble 1#1 6#3 13#4 = 0xED#8

/-- Rule R68: the inverter, applied always and once. -/
def Obligations.XorInverterFlipsEvenBits : Prop :=
  (∀ v : Codeword, Enc.invert v = v ^^^ 0x55#8 ∧
    (∀ i, i ∈ [0, 2, 4, 6] → (Enc.invert v).getLsbD i = !v.getLsbD i) ∧
    (∀ i, i ∈ [1, 3, 5, 7] → (Enc.invert v).getLsbD i = v.getLsbD i)) ∧
  (∀ s : State, s.cwOut = Enc.cwPre s.config.smallLimit s.linIn ^^^ 0x55#8) ∧
  Enc.invert 0xED#8 = 0xB8#8

/-- Rule R47: where each bit of the transmitted Codeword comes from, and that the mask undoes itself. -/
def Obligations.TransmittedBitLayout : Prop :=
  (∀ lim x, let c := Enc.cwOut lim x
    let seg := Enc.seg lim (Enc.magOf x)
    let mant := Enc.mant lim (Enc.magOf x)
    c.getLsbD 7 = (Enc.sign x).getLsbD 0 ∧ c.getLsbD 6 = !seg.getLsbD 2 ∧ c.getLsbD 5 = seg.getLsbD 1 ∧
    c.getLsbD 4 = !seg.getLsbD 0 ∧ c.getLsbD 3 = mant.getLsbD 3 ∧ c.getLsbD 2 = !mant.getLsbD 2 ∧
    c.getLsbD 1 = mant.getLsbD 1 ∧ c.getLsbD 0 = !mant.getLsbD 0) ∧
  (∀ v : Codeword, (v ^^^ 0x55#8) ^^^ 0x55#8 = v) ∧ (∀ v : Codeword, Dec.t (Enc.invert v) = v)

/-- Rule R69: the priority-encoder table and the cell intervals, for `SMALL_LIMIT = 32`. -/
def Obligations.PriorityEncoderForm : Prop :=
  (∀ (mag : Magnitude) k, 1 ≤ k → k ≤ 7 → mag >>> (k + 4) = 1#12 →
    (Enc.seg .lim32 mag).toNat = k ∧ Enc.mant .lim32 mag = mag.extractLsb' k 4 ∧
    (Enc.mant .lim32 mag).toNat + 16 = mag.toNat / 2 ^ k) ∧
  (∀ mag : Magnitude, mag >>> 5 = 0#12 → Enc.seg .lim32 mag = 0#3 ∧ Enc.mant .lim32 mag = mag.extractLsb' 1 4) ∧
  (∀ (mag : Magnitude) (seg : Segment) (mant : Mantissa),
    (Enc.seg .lim32 mag = seg ∧ Enc.mant .lim32 mag = mant) ↔
      (cellLow seg.toNat mant.toNat ≤ mag.toNat ∧ mag.toNat < cellLow seg.toNat mant.toNat + cellWidth seg.toNat))

/-- Rule R70: the ten corner cases of ENCODE with every signal, for `SMALL_LIMIT = 32`. -/
def Obligations.EncodeCornerCases : Prop :=
  ∀ s : State, s.config.smallLimit = .lim32 → ∀ r ∈ encRows,
    Enc.sign r.linIn = r.sign ∧ Enc.magRaw r.linIn = r.magRaw ∧ Enc.mag r.magRaw = r.mag ∧
    Enc.seg .lim32 r.mag = r.seg ∧ Enc.mant .lim32 r.mag = r.mant ∧ Enc.assemble r.sign r.seg r.mant = r.cwPre ∧
    exec (.encode r.linIn) s = .next (afterEncode s r.linIn r.cwOut)

/-- Rule R72: how many samples share each Codeword, for `SMALL_LIMIT = 32`. -/
def Obligations.SamplesPerCodeword : Prop :=
  ∀ s : State, s.config.smallLimit = .lim32 → ∀ c,
    (List.range 65536).countP (fun n => (s.driveLinIn (BitVec.ofNat 16 n)).cwOut == c) = preimageCount c

/-- Rule R73: the document-literal threshold 16 gives another Codeword exactly for the magnitudes 16 to 30, and its Segment 0
is the union of the two maps. -/
def Obligations.LiteralThresholdDiffers : Prop :=
  (∀ s s' x, s.config.smallLimit = .lim32 → s'.config.smallLimit = .lim16 →
    ∃ c c', exec (.encode x) s = .next (afterEncode s x c) ∧ exec (.encode x) s' = .next (afterEncode s' x c') ∧
      (c = c' ↔ ¬(16 ≤ x.toInt.natAbs ∧ x.toInt.natAbs ≤ 30))) ∧
  (∀ mag : Magnitude, mag.toNat ≤ 15 → Enc.seg .lim16 mag = 0#3 ∧ (Enc.mant .lim16 mag).toNat = mag.toNat / 2) ∧
  (∀ mag : Magnitude, 16 ≤ mag.toNat → mag.toNat ≤ 31 →
    Enc.p .lim16 mag = some 4#4 ∧ Enc.seg .lim16 mag = 0#3 ∧ (Enc.mant .lim16 mag).toNat = mag.toNat % 16)

/-! ## The decoder's stages -/

/-- Rule R81: the mask undone gives the encoder's pre-mask codeword. -/
def Obligations.XorInversionRecoversPreMask : Prop :=
  (∀ c, Dec.t c = c ^^^ 0x55#8) ∧ (∀ lim x, Dec.t (Enc.cwOut lim x) = Enc.cwPre lim x) ∧
  Dec.t 0x55#8 = 0x00#8 ∧ Dec.t 0x00#8 = 0x55#8 ∧ Dec.t 0xFF#8 = 0xAA#8 ∧ Dec.t 0xB8#8 = 0xED#8

/-- Rule R82: the three fields, unsigned. -/
def Obligations.FieldExtraction : Prop :=
  (∀ t : Codeword, (Dec.dsign t).toNat = t.toNat / 128 ∧ (Dec.dseg t).toNat = t.toNat / 16 % 8 ∧
    (Dec.dmant t).toNat = t.toNat % 16) ∧
  (∀ sign seg mant, ∃ t, Dec.dsign t = sign ∧ Dec.dseg t = seg ∧ Dec.dmant t = mant) ∧
  Dec.dsign 0xED#8 = 1#1 ∧ Dec.dseg 0xED#8 = 6#3 ∧ Dec.dmant 0xED#8 = 13#4

/-- Rule R49: the fields in terms of the operand's own bits. -/
def Obligations.FieldsFromOperandBits : Prop :=
  ∀ c : Codeword,
    Dec.dsign (Dec.t c) = BitVec.ofBool (c.getLsbD 7) ∧
    Dec.dseg (Dec.t c) = BitVec.ofBool (!c.getLsbD 6) ++ BitVec.ofBool (c.getLsbD 5) ++ BitVec.ofBool (!c.getLsbD 4) ∧
    Dec.dmant (Dec.t c) = BitVec.ofBool (c.getLsbD 3) ++ BitVec.ofBool (!c.getLsbD 2) ++ BitVec.ofBool (c.getLsbD 1) ++
      BitVec.ofBool (!c.getLsbD 0)

/-- Rule R83: the leading one and the shift amount, row by row, with the scale. -/
def Obligations.SegmentToExponentTable : Prop :=
  (∀ r ∈ [((0#3 : Segment), 0#1, 0#3, 1), (1#3, 1#1, 0#3, 1), (2#3, 1#1, 1#3, 2), (3#3, 1#1, 2#3, 4),
      (4#3, 1#1, 3#3, 8), (5#3, 1#1, 4#3, 16), (6#3, 1#1, 5#3, 32), (7#3, 1#1, 6#3, 64)],
    Dec.lead r.1 = r.2.1 ∧ Dec.shamt r.1 = r.2.2.1 ∧ 2 ^ (Dec.shamt r.1).toNat = r.2.2.2) ∧
  (∀ d, Dec.lead d = 0#1 ↔ d = 0#3) ∧ (∀ d, (Dec.shamt d).toNat ≤ 6)

/-- Rule R84: the base pattern, in its three spellings; always odd. -/
def Obligations.BasePatternIsOdd : Prop :=
  (∀ lead dmant, (Dec.base lead dmant).toNat = 32 * lead.toNat + 2 * dmant.toNat + 1) ∧
  (∀ dmant : Mantissa, Dec.base 0#1 dmant = (dmant.setWidth 6 <<< 1) ||| 1#6 ∧
    Dec.base 1#1 dmant = 0x21#6 ||| (dmant.setWidth 6 <<< 1)) ∧
  (∀ lead dmant, (Dec.base lead dmant).getLsbD 0 = true ∧ (Dec.base lead dmant).toNat % 2 = 1) ∧
  (∀ dmant, 1 ≤ (Dec.base 0#1 dmant).toNat ∧ (Dec.base 0#1 dmant).toNat ≤ 31 ∧
    33 ≤ (Dec.base 1#1 dmant).toNat ∧ (Dec.base 1#1 dmant).toNat ≤ 63) ∧
  Dec.base 1#1 13#4 = 59#6

/-- Rule R85: no bit is shifted out, where each bit of the reconstructed magnitude comes from, and that the sample which
DECODE returns has that magnitude. -/
def Obligations.MagnitudeReconstructionBits : Prop :=
  (∀ (b : BitVec 6) (sh : BitVec 3), sh.toNat ≤ 6 →
    (Dec.rmag b sh).toNat = b.toNat * 2 ^ sh.toNat ∧ (Dec.rmag b sh).toNat ≤ 4032) ∧
  (∀ (lead : BitVec 1) (dmant : Mantissa) (sh : BitVec 3), sh.toNat ≤ 6 →
    (∀ i, i < sh.toNat → (Dec.rmag (Dec.base lead dmant) sh).getLsbD i = false) ∧
    (Dec.rmag (Dec.base lead dmant) sh).getLsbD sh.toNat = true ∧
    (∀ j, j < 4 → (Dec.rmag (Dec.base lead dmant) sh).getLsbD (sh.toNat + 1 + j) = dmant.getLsbD j) ∧
    (Dec.rmag (Dec.base lead dmant) sh).getLsbD (sh.toNat + 5) = lead.getLsbD 0) ∧
  (∀ s c, ∃ y, exec (.decode c) s = .next (afterDecode s c y) ∧
    y.toInt.natAbs = (Dec.base (Dec.lead (Dec.dseg (Dec.t c))) (Dec.dmant (Dec.t c))).toNat *
      2 ^ (Dec.shamt (Dec.dseg (Dec.t c))).toNat ∧ y.toInt.natAbs ≤ 4032) ∧
  Dec.rmag 59#6 5#3 = 1888#12

/-- Rule R86: the sign restored; the sample that DECODE returns is never 0, and its bit 15 is the complement of the Sign. -/
def Obligations.SignRestoration : Prop :=
  (∀ (d : Sign) (m : Magnitude), (Dec.restore d m).toInt = if d = 1#1 then (m.toNat : Int) else -(m.toNat : Int)) ∧
  (∀ s c, ∃ y, exec (.decode c) s = .next (afterDecode s c y) ∧ y ≠ 0#16 ∧
    y.getLsbD 15 = !(Dec.dsign (Dec.t c)).getLsbD 0) ∧
  Dec.restore 0#1 180#12 = 0xFF4C#16

/-- Rule R87: DECODE answers half a cell width above the bottom of the cell. -/
def Obligations.DecodeIsCellMidpoint : Prop :=
  ∀ s c, ∃ y t, Gives s (.cwIn c) (.linOut y) t ∧
    y.toInt.natAbs = cellLow (segField c) (mantField c) + cellWidth (segField c) / 2 ∧
    (0 < y.toInt ↔ signField c = 1)

/-- Rule R88: 256 distinct results, none 0, all in [-4032, 4032], the extremes where the rule says. -/
def Obligations.DecodeRange : Prop :=
  (∀ s s' t t' c c' y, Gives s (.cwIn c) (.linOut y) t → Gives s' (.cwIn c') (.linOut y) t' → c = c') ∧
  (∀ s c, ∃ y t, Gives s (.cwIn c) (.linOut y) t ∧ 1 ≤ y.toInt.natAbs ∧ y.toInt.natAbs ≤ 4032 ∧
    (y.toInt = 1 ↔ c = 0xD5#8) ∧ (y.toInt = -1 ↔ c = 0x55#8) ∧
    (y.toInt = 4032 ↔ c = 0xAA#8) ∧ (y.toInt = -4032 ↔ c = 0x2A#8)) ∧
  (∀ s k m, k < 8 → m < 16 → ∃ c y t, Gives s (.cwIn c) (.linOut y) t ∧ y.toInt = cellLow k m + cellWidth k / 2)

/-- Rule R89: the ten corner cases of DECODE with every signal. -/
def Obligations.DecodeCornerCases : Prop :=
  ∀ s : State, ∀ r ∈ decRows,
    Dec.t r.cwIn = r.t ∧ Dec.dsign r.t = r.dsign ∧ Dec.dseg r.t = r.dseg ∧ Dec.dmant r.t = r.dmant ∧
    Dec.lead r.dseg = r.lead ∧ Dec.shamt r.dseg = r.shamt ∧ Dec.base r.lead r.dmant = r.base ∧
    Dec.rmag r.base r.shamt = r.rmag ∧ exec (.decode r.cwIn) s = .next (afterDecode s r.cwIn r.linOut)

/-- Rule R90: DECODE is a lossy inverse of ENCODE (`SMALL_LIMIT = 32`): same sign and same cell up to 4095, else ±4032. -/
def Obligations.DecodeIsLossyInverse : Prop :=
  ∀ s x, s.config.smallLimit = .lim32 → ∃ c y t, RoundTrip s x c y t ∧
    (0 ≤ x.toInt ↔ 0 < y.toInt) ∧
    (x.toInt.natAbs ≤ 4095 → ∃ k m, k < 8 ∧ m < 16 ∧
      cellLow k m ≤ x.toInt.natAbs ∧ x.toInt.natAbs < cellLow k m + cellWidth k ∧
      cellLow k m ≤ y.toInt.natAbs ∧ y.toInt.natAbs < cellLow k m + cellWidth k) ∧
    (4095 < x.toInt → y.toInt = 4032) ∧ (x.toInt < -4095 → y.toInt = -4032)

/-! ## Laws of the two operations together -/

/-- Rules R51, R100: ENCODE is onto the 256 codewords, for both values of `SMALL_LIMIT`. -/
def Obligations.EncodeIsOnto : Prop :=
  ∀ (s : State) (c : Codeword), ∃ x t, Gives s (.linIn x) (.cwOut c) t

/-- Rule R101 (as D14 states it): sign symmetry for 1 ≤ m ≤ 32767, for both values of `SMALL_LIMIT`; at 0 the result is +1;
-32768 encodes as -32767 does. -/
def Obligations.SignSymmetry : Prop :=
  (∀ (s : State) (m : Int), 1 ≤ m → m ≤ 32767 → ∃ c c' y y' t t',
    RoundTrip s (BitVec.ofInt 16 m) c y t ∧ RoundTrip s (BitVec.ofInt 16 (-m)) c' y' t' ∧ y.toInt = -y'.toInt) ∧
  (∀ s, ∃ c t, RoundTrip s 0#16 c 1#16 t) ∧
  (∀ s, ∃ t t', Gives s (.linIn (BitVec.ofInt 16 (-32768))) (.cwOut 0x2A#8) t ∧
    Gives s (.linIn (BitVec.ofInt 16 (-32767))) (.cwOut 0x2A#8) t')

/-- Rule R102 (as D14 states it), `SMALL_LIMIT = 32`: the largest error of each Segment over the unclipped samples is exactly
`maxErr`, which never decreases with the Segment; a clipped sample's error is its distance from 4032. -/
def Obligations.MaxErrorBySegment : Prop :=
  ∀ s : State, s.config.smallLimit = .lim32 →
    (∀ x, x.toInt.natAbs ≤ 4095 → ∃ c y t, RoundTrip s x c y t ∧ (y.toInt - x.toInt).natAbs ≤ maxErr (segField c)) ∧
    (∀ k, k < 8 → ∃ x c y t, x.toInt.natAbs ≤ 4095 ∧ RoundTrip s x c y t ∧ segField c = k ∧
      (y.toInt - x.toInt).natAbs = maxErr k) ∧
    (∀ x, 4095 < x.toInt.natAbs → ∃ c y t, RoundTrip s x c y t ∧ segField c = 7 ∧
      (y.toInt - x.toInt).natAbs = x.toInt.natAbs - 4032) ∧
    (∀ j k, j ≤ k → k < 8 → maxErr j ≤ maxErr k) ∧
    (List.range 8).map maxErr = [1, 1, 2, 4, 8, 16, 32, 64]

/-- Rule R103, for both values of `SMALL_LIMIT`: every sample from 4096 up gets the Codeword of 4095, every sample from -4096
down that of -4095, and the whole top cell clips together. -/
def Obligations.SaturationLaw : Prop :=
  (∀ (s : State) (x : LinearSample), 4096 ≤ x.toInt → ∃ t t',
    Gives s (.linIn x) (.cwOut 0xAA#8) t ∧ Gives s (.linIn 4095#16) (.cwOut 0xAA#8) t') ∧
  (∀ (s : State) (x : LinearSample), x.toInt ≤ -4096 → ∃ t t',
    Gives s (.linIn x) (.cwOut 0x2A#8) t ∧ Gives s (.linIn (BitVec.ofInt 16 (-4095))) (.cwOut 0x2A#8) t') ∧
  (∀ (s : State) (x : LinearSample), 3968 ≤ x.toInt → ∃ t, Gives s (.linIn x) (.cwOut 0xAA#8) t) ∧
  (∀ (s : State) (x : LinearSample), x.toInt ≤ -3968 → ∃ t, Gives s (.linIn x) (.cwOut 0x2A#8) t)

/-- Rule R104: re-encoding the decoded representative gives the same Codeword for every sample with `SMALL_LIMIT = 32`, and
with 16 exactly outside the 14 samples ±24 to ±30. -/
def Obligations.RoundTripIsIdempotent : Prop :=
  ∀ (s : State) (x : LinearSample), ∃ c y t c' u, RoundTrip s x c y t ∧ Gives t (.linIn y) (.cwOut c') u ∧
    (c' = c ↔ ¬(s.config.smallLimit = .lim16 ∧ 24 ≤ x.toInt.natAbs ∧ x.toInt.natAbs ≤ 30))

/-- Rule R105, `SMALL_LIMIT = 32`: every Codeword is a fixed point of decode-then-encode, so a sample is its own round trip
exactly when it is a result of DECODE. -/
def Obligations.DecodeThenEncodeIsIdentity : Prop :=
  (∀ s c, s.config.smallLimit = .lim32 → ∃ y t u, Gives s (.cwIn c) (.linOut y) t ∧ Gives t (.linIn y) (.cwOut c) u) ∧
  (∀ s x, s.config.smallLimit = .lim32 →
    ((∃ c t, RoundTrip s x c x t) ↔ ∃ c t, Gives s (.cwIn c) (.linOut x) t))

/-- Rule R106, `SMALL_LIMIT = 32`: order preservation. -/
def Obligations.OrderPreservation : Prop :=
  ∀ (s : State) (a b : LinearSample), s.config.smallLimit = .lim32 → a.toInt ≤ b.toInt →
    ∃ ca cb ya yb ta tb, RoundTrip s a ca ya ta ∧ RoundTrip s b cb yb tb ∧ ya.toInt ≤ yb.toInt ∧
      (0 ≤ a.toInt → unmask ca ≤ unmask cb) ∧
      (b.toInt < 0 → unmask cb ≤ unmask ca ∧ unmask ca < 128 ∧ unmask cb < 128)

/-- Rule R107, `SMALL_LIMIT = 32`: the error of an unclipped sample is at most half its cell's width, a bound that is at most
64 and never decreases with the magnitude. -/
def Obligations.QuantizationErrorBound : Prop :=
  ∀ (s : State) (x x' : LinearSample), s.config.smallLimit = .lim32 → x.toInt.natAbs ≤ x'.toInt.natAbs →
    x'.toInt.natAbs ≤ 4095 → ∃ c y t c' y' t', RoundTrip s x c y t ∧ RoundTrip s x' c' y' t' ∧
      (y.toInt - x.toInt).natAbs ≤ cellWidth (segField c) / 2 ∧
      (y'.toInt - x'.toInt).natAbs ≤ cellWidth (segField c') / 2 ∧
      cellWidth (segField c) / 2 ≤ cellWidth (segField c') / 2 ∧ cellWidth (segField c') / 2 ≤ 64

/-- Rule R108: what the document-literal threshold 16 breaks. -/
def Obligations.LiteralThresholdBreaksLaws : Prop :=
  ∀ s : State, s.config.smallLimit = .lim16 →
    (∀ c, ∃ y t c' u, Gives s (.cwIn c) (.linOut y) t ∧ Gives t (.linIn y) (.cwOut c') u ∧
      (c' = c ↔ ¬(segField c = 0 ∧ 8 ≤ mantField c ∧ mantField c ≤ 14))) ∧
    (∃ t, RoundTrip s 16#16 0xD5#8 1#16 t) ∧
    (∀ x, x.toInt.natAbs ≤ 31 → ∃ c y t, RoundTrip s x c y t ∧ segField c = 0 ∧ (y.toInt - x.toInt).natAbs ≤ 15) ∧
    (∀ x, 32 ≤ x.toInt.natAbs → x.toInt.natAbs ≤ 63 →
      ∃ c y t, RoundTrip s x c y t ∧ segField c = 1 ∧ (y.toInt - x.toInt).natAbs ≤ 1) ∧
    (∃ c c' t t', Gives s (.linIn 15#16) (.cwOut c) t ∧ Gives s (.linIn 16#16) (.cwOut c') t' ∧
      unmask c = 0x87 ∧ unmask c' = 0x80)

/-- Rule R109: the document's three known vectors, for both values of `SMALL_LIMIT`. -/
def Obligations.KnownVectors : Prop :=
  ∀ s : State,
    (∃ t, RoundTrip s 3#16 (0b10000001#8 ^^^ 0x55#8) 3#16 t) ∧
    (∃ t, RoundTrip s 181#16 (0b10110110#8 ^^^ 0x55#8) 180#16 t) ∧
    (∃ t, RoundTrip s 1910#16 (0b11101101#8 ^^^ 0x55#8) 1888#16 t) ∧
    Enc.cwPre s.config.smallLimit 3#16 = 0b10000001#8 ∧ Enc.cwPre s.config.smallLimit 181#16 = 0b10110110#8 ∧
    Enc.cwPre s.config.smallLimit 1910#16 = 0b11101101#8 ∧
    (Dec.rmagOf 0b10000001#8).toNat = 3 ∧ (Dec.rmagOf 0b10110110#8).toNat = 180 ∧
    (Dec.rmagOf 0b11101101#8).toNat = 1888 ∧
    Dec.dsign 0b10000001#8 = 1#1 ∧ Dec.dsign 0b10110110#8 = 1#1 ∧ Dec.dsign 0b11101101#8 = 1#1

/-! ## The machine as a whole -/

/-- Rule R121: saturation leaves no trace.  After an out-of-range sample the machine differs from the machine after ±4095 in
nothing but the operand that still stands on the input port (notes/assumptions/4.md). -/
def Obligations.SaturationLeavesNoTrace : Prop :=
  ∀ (s : State) (x : LinearSample), 4095 < x.toInt.natAbs →
    ∃ t t', exec (.encode x) s = .next t ∧
      exec (.encode (if 0 ≤ x.toInt then 4095#16 else BitVec.ofInt 16 (-4095))) s = .next t' ∧ t = { t' with linIn := x }

/-- Rule R32: results in input order, 1:1, each depending on its own operand only; so in two runs of the same design, whatever
else either presents and in whatever order, the same operand has the same result. -/
def Obligations.ResultsInOperandOrder : Prop :=
  (∀ s : State, ∃ t, runAll s = .next t ∧ t.pending = [] ∧ t.config = s.config ∧
    t.results = s.results ++ s.pending.map (resultOf s.config.smallLimit)) ∧
  (∀ (s s' : State) (i j : Nat) (pw : PortWord), s.config = s'.config → s.pending[i]? = some pw → s'.pending[j]? = some pw →
    ∃ t t' r, runAll s = .next t ∧ runAll s' = .next t' ∧
      t.results[s.results.length + i]? = some r ∧ t'.results[s'.results.length + j]? = some r)

/-- Rule R36: a stream processed in chunks of any size ends as the same stream processed whole. -/
def Obligations.ChunkingHasNoEffect : Prop :=
  ∀ (s : State) (chunks : List (List PortWord)), s.pending = [] →
    ∃ t, runChunks chunks s = .next t ∧ runAll (s.load chunks.flatten) = .next t ∧
      t.results = s.results ++ chunks.flatten.map (resultOf s.config.smallLimit)

/-- Rule R120 (as D12 states it): a step has one outcome; no state ever leads to a fault or a refusal. -/
def Obligations.NoRunEverStops : Prop :=
  ∀ s : State, Safe s

/-- Rules R29, R14: a step with an operand waiting takes exactly that one and adds exactly one result; no step changes an
earlier result or the design parameter. -/
def Obligations.OneResultPerOperand : Prop :=
  ∀ s t : State, step s = .next t →
    t.pending.length + t.results.length = s.pending.length + s.results.length ∧
    t.pending = s.pending.tail ∧ s.results <+: t.results ∧ t.config = s.config ∧
    (s.pending ≠ [] → t.results.length = s.results.length + 1)

/-- Rule R33 (as D18 states it): the two units share nothing, so an ENCODE and a DECODE give the same results in either order.
That both orders leave the same levels on the ports rests on the model's choice that a port keeps its last operand,
notes/assumptions/4.md. -/
def Obligations.UnitsShareNothing : Prop :=
  ∀ (s : State) (x : LinearSample) (c : Codeword), ∃ a b t t' u u',
    exec (.encode x) s = .next t ∧ exec (.decode c) t = .next t' ∧
    exec (.decode c) s = .next u ∧ exec (.encode x) u = .next u' ∧
    t'.results = s.results ++ [.cwOut a, .linOut b] ∧ u'.results = s.results ++ [.linOut b, .cwOut a] ∧
    u' = { t' with results := u'.results }

/-- Rule R88 as an invariant of every step: every sample collected has one of the 128 reconstructed magnitudes, so it is not
0 and lies in [-4032, 4032]. -/
def Obligations.SamplesStayInImage : Prop :=
  ∀ s t : State, SamplesInImage s → step s = .next t → SamplesInImage t

/-- The invariant holds at reset. -/
def Obligations.ResetSamplesInImage : Prop :=
  SamplesInImage State.reset

/-- Rule R32 as a law of every step: the results collected so far followed by the results that the waiting operands are owed,
each the arithmetic ENCODE or DECODE of its own operand, are the same list after a step as before it, and so is the design
parameter.  (That the operands and the results stand in two lists is how the model holds a run, notes/assumptions/1.md,
12.md.) -/
def Obligations.StepKeepsPromisedResults : Prop :=
  ∀ s t : State, step s = .next t → t.config = s.config ∧
    t.results ++ t.pending.map (resultOf t.config.smallLimit) = s.results ++ s.pending.map (resultOf s.config.smallLimit)
end

