-- ==== Sys2Proof/Laws/EncUnit.lean ====
section
/-!
SUPPORT. What the priority scan of the segment detector finds (rule R8's `msb`).
-/

namespace Sys2Proof.Machine

theorem Enc.msbFrom_le (v : Magnitude) (n : Nat) : Enc.msbFrom v n ≤ n := by
  induction n with
  | zero => simp [Enc.msbFrom]
  | succ n ih =>
    simp only [Enc.msbFrom]
    split
    · exact Nat.le_refl _
    · omega

/-- Scanning down from position `n` a value below `2^(n+1)` that is not 0 ends at its highest set bit. -/
theorem Enc.msbFrom_bracket (v : Magnitude) (n : Nat) (hv : v.toNat ≠ 0) (hn : v.toNat < 2 ^ (n + 1)) :
    2 ^ Enc.msbFrom v n ≤ v.toNat ∧ v.toNat < 2 ^ (Enc.msbFrom v n + 1) := by
  induction n with
  | zero =>
    simp only [Enc.msbFrom]
    constructor
    · simp; omega
    · simpa using hn
  | succ n ih =>
    simp only [Enc.msbFrom]
    split
    · next h => exact ⟨Nat.ge_two_pow_of_testBit (by simpa [BitVec.getLsbD] using h), hn⟩
    · next h =>
      refine ih ?_
      by_contra hge
      have hbit : v.toNat.testBit (n + 1) = false := by simpa [BitVec.getLsbD] using h
      have hdiv : v.toNat / 2 ^ (n + 1) = 1 := by
        rw [Nat.div_eq_iff (by positivity)]
        rw [Nat.pow_succ] at hn
        omega
      simp [Nat.testBit, Nat.shiftRight_eq_div_pow, hdiv] at hbit

/-- `msb` finds the position of the most significant set bit. -/
theorem Enc.msb_bracket (v : Magnitude) (hv : v.toNat ≠ 0) :
    2 ^ (Enc.msb v).toNat ≤ v.toNat ∧ v.toNat < 2 ^ ((Enc.msb v).toNat + 1) := by
  have hle := Enc.msbFrom_le v 11
  have hto : (Enc.msb v).toNat = Enc.msbFrom v 11 := by
    simp only [Enc.msb, BitVec.toNat_ofNat]
    omega
  rw [hto]
  exact Enc.msbFrom_bracket v 11 hv (by have := v.isLt; simpa using this)

theorem Enc.msb_le_eleven (v : Magnitude) : (Enc.msb v).toNat ≤ 11 := by
  have hle := Enc.msbFrom_le v 11
  simp only [Enc.msb, BitVec.toNat_ofNat]
  omega

end Sys2Proof.Machine
end

