-- ==== Sys2Proof/Laws/State.lean ====
section
/-!
SUPPORT. One lemma per field of `State` and per operation that updates one, all by `rfl`, so that no proof unfolds a record
update.
-/

namespace Sys2Proof.Machine.State

variable (s : State) (x : LinearSample) (c : Codeword) (r : PortResult) (pw : PortWord) (l : List PortWord)

@[simp] theorem driveLinIn_config : (s.driveLinIn x).config = s.config := rfl
@[simp] theorem driveLinIn_linIn : (s.driveLinIn x).linIn = x := rfl
@[simp] theorem driveLinIn_cwIn : (s.driveLinIn x).cwIn = s.cwIn := rfl
@[simp] theorem driveLinIn_pending : (s.driveLinIn x).pending = s.pending := rfl
@[simp] theorem driveLinIn_results : (s.driveLinIn x).results = s.results := rfl

@[simp] theorem driveCwIn_config : (s.driveCwIn c).config = s.config := rfl
@[simp] theorem driveCwIn_linIn : (s.driveCwIn c).linIn = s.linIn := rfl
@[simp] theorem driveCwIn_cwIn : (s.driveCwIn c).cwIn = c := rfl
@[simp] theorem driveCwIn_pending : (s.driveCwIn c).pending = s.pending := rfl
@[simp] theorem driveCwIn_results : (s.driveCwIn c).results = s.results := rfl

@[simp] theorem collect_config : (s.collect r).config = s.config := rfl
@[simp] theorem collect_linIn : (s.collect r).linIn = s.linIn := rfl
@[simp] theorem collect_cwIn : (s.collect r).cwIn = s.cwIn := rfl
@[simp] theorem collect_pending : (s.collect r).pending = s.pending := rfl
@[simp] theorem collect_results : (s.collect r).results = s.results ++ [r] := rfl

@[simp] theorem present_config : (s.present pw).config = s.config := rfl
@[simp] theorem present_linIn : (s.present pw).linIn = s.linIn := rfl
@[simp] theorem present_cwIn : (s.present pw).cwIn = s.cwIn := rfl
@[simp] theorem present_pending : (s.present pw).pending = pw :: s.pending := rfl
@[simp] theorem present_results : (s.present pw).results = s.results := rfl

@[simp] theorem load_config : (s.load l).config = s.config := rfl
@[simp] theorem load_linIn : (s.load l).linIn = s.linIn := rfl
@[simp] theorem load_cwIn : (s.load l).cwIn = s.cwIn := rfl
@[simp] theorem load_pending : (s.load l).pending = s.pending ++ l := rfl
@[simp] theorem load_results : (s.load l).results = s.results := rfl

/-- Two states are equal when their five fields are. -/
theorem ext_fields {s t : State} (hc : s.config = t.config) (hl : s.linIn = t.linIn) (hd : s.cwIn = t.cwIn)
    (hp : s.pending = t.pending) (hr : s.results = t.results) : s = t := by
  cases s
  cases t
  simp_all

end Sys2Proof.Machine.State
end

