-- ==== Sys2Proof/Laws/Ops.lean ====
section
/-!
SUPPORT. What the shared operations can do, said once: fetching the next operand, performing one transaction, one step.
-/

namespace Sys2Proof.Machine

/-! ## The output ports depend on their own input port alone (rule R16) -/

theorem State.cwOut_of_fields {s t : State} (hc : s.config = t.config) (hl : s.linIn = t.linIn) : s.cwOut = t.cwOut := by
  simp [State.cwOut, hc, hl]

theorem State.linOut_of_fields {s t : State} (h : s.cwIn = t.cwIn) : s.linOut = t.linOut := by
  simp [State.linOut, h]

/-! ## Fetching -/

theorem State.fetch_none_iff (s : State) : s.fetch = none ↔ s.pending = [] := by
  unfold State.fetch
  split <;> simp_all

theorem State.fetch_some_iff (s t : State) (pw : PortWord) :
    s.fetch = some (pw, t) ↔ ∃ rest, s.pending = pw :: rest ∧ t = { s with pending := rest } := by
  unfold State.fetch
  split
  · simp_all
  · next w rest h =>
    constructor
    · rintro h'
      simp only [Option.some.injEq, Prod.mk.injEq] at h'
      exact ⟨rest, by rw [h, h'.1], h'.2.symm⟩
    · rintro ⟨rest', h', rfl⟩
      simp_all

/-- Presenting an operand and fetching it again is the identity. -/
theorem State.fetch_present (s : State) (pw : PortWord) : (s.present pw).fetch = some (pw, s) := rfl

/-! ## Transactions -/

/-- All that an ENCODE transaction can do. -/
theorem execEncode_next_iff (x : LinearSample) (s t : State) :
    execEncode x s = .next t ↔ t = (s.driveLinIn x).collect (.cwOut (Enc.cwOut s.config.smallLimit x)) := by
  simp [execEncode, State.cwOut, eq_comm]

/-- All that a DECODE transaction can do. -/
theorem execDecode_next_iff (c : Codeword) (s t : State) :
    execDecode c s = .next t ↔ t = (s.driveCwIn c).collect (.linOut (Dec.linOut c)) := by
  simp [execDecode, State.linOut, eq_comm]

/-- All that a step can do, guards included: idle, one ENCODE, or one DECODE. -/
theorem step_cases {s t : State} (h : step s = .next t) :
    (s.pending = [] ∧ t = s) ∨
    (∃ x rest, s.pending = .linIn x :: rest ∧
      t = (State.driveLinIn { s with pending := rest } x).collect (.cwOut (Enc.cwOut s.config.smallLimit x))) ∨
    (∃ c rest, s.pending = .cwIn c :: rest ∧
      t = (State.driveCwIn { s with pending := rest } c).collect (.linOut (Dec.linOut c))) := by
  unfold step at h
  split at h
  · next hf => exact .inl ⟨(State.fetch_none_iff s).1 hf, by cases h; rfl⟩
  · next pw s' hf =>
    obtain ⟨rest, hp, rfl⟩ := (State.fetch_some_iff s s' pw).1 hf
    cases pw with
    | linIn x => exact .inr (.inl ⟨x, rest, hp, (execEncode_next_iff x _ t).1 h⟩)
    | cwIn c => exact .inr (.inr ⟨c, rest, hp, (execDecode_next_iff c _ t).1 h⟩)

end Sys2Proof.Machine
end

