-- ==== Sys2Proof/Laws/PerInstr.lean ====
section
/-!
SUPPORT. Per-instruction facts about the instruction as syntax.
-/

namespace Sys2Proof.Laws

/-- What is encoded is well formed: the width is a port's, and the bits fit it (rules R29, R40). -/
def EncodedFits.Statement (i : Instr) : Prop :=
  i.wf = true ∧ bitsWf (encodeTableWord i).1 (encodeTableWord i).2 = true

theorem EncodedFits.encode (linIn : LinearSample) : EncodedFits.Statement (.encode linIn) :=
  ⟨rfl, decide_eq_true linIn.isLt⟩

theorem EncodedFits.decode (cwIn : Codeword) : EncodedFits.Statement (.decode cwIn) :=
  ⟨rfl, decide_eq_true cwIn.isLt⟩

end Sys2Proof.Laws
end

