-- ==== Sys2Proof/Tests/Slice0.lean ====
section
/-!
SUPPORT. Tests.  Every expected value is the spec's own: the words of the opcode table's two formats, the corner cases of
rules R70 and R89, the transactions of spec/95_test_vectors.md.  The witnesses at the end show, for each statement that has
hypotheses, that they can be met.
-/

namespace Sys2Proof.Tests

open Sys2Proof Sys2Proof.Machine Sys2Proof.Spec

/-! ## Helpers -/

/-- The state from which the tests start, for either design: two operands wait, one result has been collected. -/
def testState (lim : SmallLimit) : State :=
  { config := { smallLimit := lim }
    linIn := 0x1234#16
    cwIn := 0x56#8
    pending := [.linIn 0x00B5#16, .cwIn 0xE3#8]
    results := [.linOut 33#16] }

/-- The state that an outcome holds, if it is a next state. -/
def nextOf : Host.Outcome State Fault Refusal → Option State
  | .next s => some s
  | .fault _ => none
  | .refused _ => none

/-! ## WellFormed: an ill-formed term for each check -/

theorem test_bits_width_refused : bitsWf 12 0x0FF = false := by decide
theorem test_bits_too_large_refused : bitsWf 16 0x10000 = false ∧ bitsWf 8 0x100 = false := by decide
theorem test_bits_accepted : bitsWf 16 0xFFFF = true ∧ bitsWf 8 0xFF = true := by decide
theorem test_line_encInt_refused : (Line.encInt 32768).wf = false ∧ (Line.encInt (-32769)).wf = false := by decide
theorem test_line_encHex_refused : (Line.encHex 0x10000).wf = false := by decide
theorem test_line_decInt_refused : (Line.decInt 256).wf = false ∧ (Line.decInt (-1)).wf = false := by decide
theorem test_line_decHex_refused : (Line.decHex 0x100).wf = false := by decide

/-! ## Decoding, by words written out from the formats of rule R40 -/

/-- `ENC -181`: format ENC16, `ssssssssssssssss` = 1111 1111 0100 1011 on `lin_in` (spec/95_test_vectors.md P2). -/
theorem test_decode_enc16 : decodeTableWord 16 0b1111111101001011 = some (.encode 0xFF4B#16) := by decide
/-- `DEC 0xE3`: format DEC8, `cccccccc` = 1110 0011 on `cw_in` (spec/95_test_vectors.md P1). -/
theorem test_decode_dec8 : decodeTableWord 8 0b11100011 = some (.decode 0xE3#8) := by decide
theorem test_decode_rejects_by_name :
    decodeBits 12 0x2A = .error (.noPortOfWidth 12) ∧ decodeBits 8 0x100 = .error (.bitsBeyondWidth 8 0x100) :=
  ⟨rfl, rfl⟩
theorem test_encode_words : encodeTableWord (.encode 0xFF4B#16) = (16, 0xFF4B) ∧ encodeTableWord (.decode 0xE3#8) = (8, 0xE3) := by
  decide
theorem test_assemble : assemble (.encInt (-181)) = some (.encode 0xFF4B#16) ∧ assemble (.decHex 0xE3) = some (.decode 0xE3#8) := by
  decide

/-! ## One transaction each -/

/-- `ENC -32768 -> 0x2A` (rule R70, P3): the magnitude is read unsigned. -/
theorem test_encode_most_negative :
    (nextOf (exec (.encode 0x8000#16) (testState .lim32))).map (·.results) = some [.linOut 33#16, .cwOut 0x2A#8] := by decide
/-- `ENC 16 -> 0xDD` under 32 (P4a) and `-> 0xD5` under 16 (P4b). -/
theorem test_encode_threshold :
    (nextOf (exec (.encode 16#16) (testState .lim32))).map (·.cwOut) = some 0xDD#8 ∧
    (nextOf (exec (.encode 16#16) (testState .lim16))).map (·.cwOut) = some 0xD5#8 := by decide
/-- `DEC 0x00 -> -688` (rule R89): the all-zero operand is an ordinary Codeword. -/
theorem test_decode_zero_operand :
    (nextOf (exec (.decode 0x00#8) (testState .lim32))).map (·.results) = some [.linOut 33#16, .linOut 0xFD50#16] := by decide
/-- `DEC 0x2A -> -4032` (rule R89); the encoder's ports stay as they were. -/
theorem test_decode_smallest :
    (nextOf (exec (.decode 0x2A#8) (testState .lim32))).map (fun s => (s.linOut, s.linIn)) = some (0xF040#16, 0x1234#16) := by
  decide

/-! ## Stepping -/

/-- The first row of P1 as the first instruction after reset. -/
theorem test_step_first_after_reset :
    (nextOf (step (State.reset.withFetchWord 16 0x0003))).map (·.results) = some [.cwOut 0xD4#8] := by decide
theorem test_step_idle : nextOf (step State.reset) = some State.reset := by decide
theorem test_run_two :
    (nextOf (runAll (testState .lim32))).map (·.results) = some [.linOut 33#16, .cwOut 0xE3#8, .linOut 180#16] := by decide

/-! ## Witnesses: the hypotheses of each statement can be met, at the boundary where there is one -/

theorem witness_StepRunsPresentedTransaction :
    (testState .lim32).pending = .linIn 0x00B5#16 :: [.cwIn 0xE3#8] ∧
    decodeTableWord 16 0xFFFF = some (.encode 0xFFFF#16) ∧ State.reset.pending = [] := by decide
theorem witness_DecodeIsInverseOfEncode : decodeTableWord 8 0xFF = some (.decode 0xFF#8) := by decide
theorem witness_NotationReadsLiterals :
    (-32768 : Int) ≤ -32768 ∧ (32767 : Int) ≤ 32767 ∧ (-32769 : Int) < -32768 ∧ (32767 : Int) < 32768 ∧
    0xFFFF < 0x10000 ∧ 0x10000 ≤ 0x10000 ∧ (0 : Int) ≤ 0 ∧ (255 : Int) ≤ 255 ∧ (-1 : Int) < 0 ∧ (255 : Int) < 256 ∧
    0xFF < 0x100 ∧ 0x100 ≤ 0x100 := by decide
theorem witness_EncodeHasNoSideEffect :
    ((testState .lim32).driveCwIn 1#8).config = (testState .lim32).config := by decide
theorem witness_DecodeIgnoresSmallLimit : segField 0xD5#8 = 0 ∧ segField 0x5A#8 = 0 := by decide
theorem witness_SignHandlerAbsoluteValue : 0 ≤ (0x7FFF#16 : LinearSample).toInt := by decide
theorem witness_MagnitudeClampSaturates : 3968 ≤ (3968#16 : LinearSample).toInt.natAbs := by decide
theorem witness_SmallMagnitudeCase :
    (31#12 : Magnitude).toNat < SmallLimit.lim32.value ∧ (15#12 : Magnitude).toNat < SmallLimit.lim16.value := by decide
theorem witness_SegmentDetectorFindsHighestBit :
    Enc.small .lim32 32#12 = false ∧ Enc.small .lim16 16#12 = false ∧
    SmallLimit.lim32.value ≤ 2 ^ 5 ∧ SmallLimit.lim16.value ≤ 2 ^ 4 ∧ 11 ≤ 11 := by decide
theorem witness_MantissaQuantizerTruncates :
    Enc.small .lim32 31#12 = true ∧ Enc.small .lim32 32#12 = false ∧ Enc.seg .lim32 63#12 = 1#3 := by decide
theorem witness_PriorityEncoderForm :
    (32#12 : Magnitude) >>> (1 + 4) = 1#12 ∧ (4095#12 : Magnitude) >>> (7 + 4) = 1#12 ∧ (31#12 : Magnitude) >>> 5 = 0#12 := by
  decide
theorem witness_EncodeCornerCases : (testState .lim32).config.smallLimit = .lim32 ∧ encRows ≠ [] := by
  exact ⟨rfl, List.cons_ne_nil _ _⟩
theorem witness_SamplesPerCodeword : (testState .lim32).config.smallLimit = .lim32 := by decide
theorem witness_LiteralThresholdDiffers :
    (testState .lim32).config.smallLimit = .lim32 ∧ (testState .lim16).config.smallLimit = .lim16 ∧
    (15#12 : Magnitude).toNat ≤ 15 ∧ 16 ≤ (16#12 : Magnitude).toNat ∧ (31#12 : Magnitude).toNat ≤ 31 := by decide
theorem witness_MagnitudeReconstructionBits : (6#3 : BitVec 3).toNat ≤ 6 ∧ 6 - 1 < (6#3 : BitVec 3).toNat ∧ 3 < 4 := by decide
theorem witness_DecodeRange :
    (∃ t, Gives State.reset (.cwIn 0xAA#8) (.linOut 0x0FC0#16) t) ∧
    (∃ t, Gives (testState .lim16) (.cwIn 0xAA#8) (.linOut 0x0FC0#16) t) ∧ 7 < 8 ∧ 15 < 16 :=
  ⟨⟨_, rfl, rfl⟩, ⟨_, rfl, rfl⟩, by decide, by decide⟩
theorem witness_DecodeCornerCases : decRows ≠ [] := List.cons_ne_nil _ _
theorem witness_DecodeIsLossyInverse :
    (testState .lim32).config.smallLimit = .lim32 ∧ (4095#16 : LinearSample).toInt.natAbs ≤ 4095 ∧
    4095 < (4096#16 : LinearSample).toInt ∧ (0xF000#16 : LinearSample).toInt < -4095 := by decide
theorem witness_SignSymmetry : (1 : Int) ≤ 1 ∧ (32767 : Int) ≤ 32767 := by decide
theorem witness_MaxErrorBySegment :
    (testState .lim32).config.smallLimit = .lim32 ∧ (0xF001#16 : LinearSample).toInt.natAbs ≤ 4095 ∧
    4095 < (0x8000#16 : LinearSample).toInt.natAbs ∧ 0 ≤ 7 ∧ 7 < 8 := by decide
theorem witness_SaturationLaw :
    4096 ≤ (4096#16 : LinearSample).toInt ∧ (0xF000#16 : LinearSample).toInt ≤ -4096 ∧
    3968 ≤ (3968#16 : LinearSample).toInt ∧ (0xF080#16 : LinearSample).toInt ≤ -3968 := by decide
theorem witness_RoundTripIsIdempotent_exception :
    (testState .lim16).config.smallLimit = .lim16 ∧ 24 ≤ (24#16 : LinearSample).toInt.natAbs ∧
    (0xFFE2#16 : LinearSample).toInt.natAbs ≤ 30 := by decide
theorem witness_DecodeThenEncodeIsIdentity : (testState .lim32).config.smallLimit = .lim32 := by decide
theorem witness_OrderPreservation :
    (testState .lim32).config.smallLimit = .lim32 ∧ (0x8000#16 : LinearSample).toInt ≤ (0xFFFF#16 : LinearSample).toInt ∧
    (0xFFFF#16 : LinearSample).toInt < 0 ∧ (0#16 : LinearSample).toInt ≤ (1#16 : LinearSample).toInt ∧
    0 ≤ (0#16 : LinearSample).toInt := by decide
theorem witness_QuantizationErrorBound :
    (testState .lim32).config.smallLimit = .lim32 ∧ (31#16 : LinearSample).toInt.natAbs ≤ (4095#16 : LinearSample).toInt.natAbs ∧
    (4095#16 : LinearSample).toInt.natAbs ≤ 4095 := by decide
theorem witness_LiteralThresholdBreaksLaws :
    (testState .lim16).config.smallLimit = .lim16 ∧ (0xFFE1#16 : LinearSample).toInt.natAbs ≤ 31 ∧
    32 ≤ (32#16 : LinearSample).toInt.natAbs ∧ (63#16 : LinearSample).toInt.natAbs ≤ 63 := by decide
theorem witness_SaturationLeavesNoTrace :
    4095 < (0x8000#16 : LinearSample).toInt.natAbs ∧ 4095 < (4096#16 : LinearSample).toInt.natAbs := by decide
theorem witness_ResultsInOperandOrder :
    (testState .lim32).config = ((testState .lim32).present (.cwIn 0xE3#8)).config ∧
    (testState .lim32).pending[1]? = some (.cwIn 0xE3#8) ∧
    ((testState .lim32).present (.cwIn 0xE3#8)).pending[0]? = some (.cwIn 0xE3#8) := by decide
theorem witness_ChunkingHasNoEffect : State.reset.pending = [] := by decide
theorem witness_OneResultPerOperand : ∃ t, step (testState .lim32) = .next t ∧ (testState .lim32).pending ≠ [] :=
  ⟨_, rfl, List.cons_ne_nil _ _⟩
theorem witness_StepKeepsPromisedResults : ∃ t, step (testState .lim16) = .next t ∧ t.pending ≠ (testState .lim16).pending :=
  ⟨_, rfl, by decide⟩
theorem witness_SamplesStayInImage : SamplesInImage (testState .lim32) ∧ ∃ t, step (testState .lim32) = .next t := by
  refine ⟨?_, _, rfl⟩
  intro y hy
  have h : y = 33#16 := by simpa [testState] using hy
  subst h
  exact ⟨⟨1, 0, by decide⟩, by decide⟩

end Sys2Proof.Tests
end

section
/-!
SUPPORT. The encoder unit in arithmetic: each signal of rules R61 to R67 as the number that `Sys2Proof.Spec` gives it, up to
the whole of ENCODE (rule R60).
-/

namespace Sys2Proof

theorem SmallLimit.sixteen_le_value (lim : SmallLimit) : 16 ≤ lim.value := by
  cases lim <;> decide

theorem SmallLimit.value_le_thirtyTwo (lim : SmallLimit) : lim.value ≤ 32 := by
  cases lim <;> decide

end Sys2Proof

namespace Sys2Proof.Machine
open Sys2Proof.Spec

@[simp] theorem Enc.sign_toNat (x : LinearSample) : (Enc.sign x).toNat = signOf x := by
  have hx := x.isLt
  have hneg : 0 ≤ x.toInt ↔ x.toNat < 32768 := by rw [BitVec.toInt_eq_toNat_cond]; omega
  simp only [Enc.sign, signOf, hneg, BitVec.toNat_not, BitVec.extractLsb'_toNat, Nat.shiftRight_eq_div_pow]
  split <;> omega

@[simp] theorem Enc.magRaw_toNat (x : LinearSample) : (Enc.magRaw x).toNat = x.toInt.natAbs := by
  have hx := x.isLt
  have hmsb : x.getLsbD 15 = decide (32768 ≤ x.toNat) := BitVec.msb_eq_decide x
  simp only [Enc.magRaw, hmsb, decide_eq_true_eq, BitVec.toInt_eq_toNat_cond]
  split
  · rw [BitVec.toNat_neg]; omega
  · omega

@[simp] theorem Enc.mag_toNat (r : MagRaw) : (Enc.mag r).toNat = min r.toNat 4095 := by
  have hmax : Config.magMax.toNat = 4095 := rfl
  simp only [Enc.mag, hmax]
  split
  · rw [hmax]; omega
  · simp only [BitVec.extractLsb'_toNat, Nat.shiftRight_zero]; omega

@[simp] theorem Enc.magOf_toNat (x : LinearSample) : (Enc.magOf x).toNat = magnitude x := by
  simp [Enc.magOf, magnitude]

theorem Enc.msb_toNat (v : Magnitude) (hv : v.toNat ≠ 0) : (Enc.msb v).toNat = Nat.log2 v.toNat :=
  ((Nat.log2_eq_iff hv).2 (Enc.msb_bracket v hv)).symm

@[simp] theorem Enc.seg_toNat (lim : SmallLimit) (mag : Magnitude) :
    (Enc.seg lim mag).toNat = segmentOf lim.value mag.toNat := by
  by_cases h : mag.toNat < lim.value
  · simp [Enc.seg, Enc.p, Enc.small, segmentOf, h]
  · have hlim := SmallLimit.sixteen_le_value lim
    have hlow : 4 ≤ Nat.log2 mag.toNat := (Nat.le_log2 (by omega)).2 (by omega)
    have hmsb := Enc.msb_toNat mag (by omega)
    have hhigh := Enc.msb_le_eleven mag
    simp only [Enc.seg, Enc.p, Enc.small, segmentOf, h, decide_false, Bool.false_eq_true, if_false,
      BitVec.toNat_setWidth, BitVec.toNat_sub, Config.windowLow, BitVec.toNat_ofNat, hmsb] at hhigh ⊢
    omega

@[simp] theorem Enc.mant_toNat (lim : SmallLimit) (mag : Magnitude) :
    (Enc.mant lim mag).toNat = mantissaOf lim.value mag.toNat := by
  by_cases h : mag.toNat < lim.value
  · have hlim := SmallLimit.value_le_thirtyTwo lim
    simp only [Enc.mant, Enc.small, mantissaOf, h, decide_true, if_true, BitVec.toNat_setWidth,
      BitVec.toNat_ushiftRight, Nat.shiftRight_eq_div_pow]
    omega
  · have hand (n : Nat) : n &&& 15 = n % 16 := Nat.and_two_pow_sub_one_eq_mod n 4
    simp [Enc.mant, Enc.small, mantissaOf, h, Nat.shiftRight_eq_div_pow, hand]

@[simp] theorem Enc.assemble_toNat (sign : Sign) (seg : Segment) (mant : Mantissa) :
    (Enc.assemble sign seg mant).toNat = 128 * sign.toNat + 16 * seg.toNat + mant.toNat := by
  have hseg := seg.isLt
  have hmant := mant.isLt
  simp only [Enc.assemble, BitVec.toNat_append]
  rw [← Nat.shiftLeft_add_eq_or_of_lt hseg, ← Nat.shiftLeft_add_eq_or_of_lt hmant]
  simp only [Nat.shiftLeft_eq]
  omega

@[simp] theorem Enc.cwPre_toNat (lim : SmallLimit) (x : LinearSample) :
    (Enc.cwPre lim x).toNat = preMask lim.value x := by
  simp [Enc.cwPre, preMask]

/-- Rule R60: the encoder unit computes the arithmetic ENCODE. -/
theorem Enc.cwOut_eq_codeword (lim : SmallLimit) (x : LinearSample) : Enc.cwOut lim x = codeword lim x := by
  rw [codeword, ← Enc.cwPre_toNat, BitVec.ofNat_toNat, BitVec.setWidth_eq]
  rfl

end Sys2Proof.Machine
end

section
/-!
SUPPORT. The decoder unit in arithmetic: each signal of rules R81 to R86 as the number that `Sys2Proof.Spec` gives it, up to
the whole of DECODE (rule R80).
-/

namespace Sys2Proof.Machine
open Sys2Proof.Spec

@[simp] theorem Dec.t_toNat (c : Codeword) : (Dec.t c).toNat = unmask c := rfl

@[simp] theorem Dec.dsign_toNat (t : Codeword) : (Dec.dsign t).toNat = t.toNat / 128 := by
  have ht := t.isLt
  simp only [Dec.dsign, BitVec.extractLsb'_toNat, Nat.shiftRight_eq_div_pow]
  omega

@[simp] theorem Dec.dseg_toNat (t : Codeword) : (Dec.dseg t).toNat = t.toNat / 16 % 8 := by
  simp [Dec.dseg, BitVec.extractLsb'_toNat, Nat.shiftRight_eq_div_pow]

@[simp] theorem Dec.dmant_toNat (t : Codeword) : (Dec.dmant t).toNat = t.toNat % 16 := by
  simp [Dec.dmant, BitVec.extractLsb'_toNat]

@[simp] theorem Dec.lead_toNat (d : Segment) : (Dec.lead d).toNat = if d.toNat = 0 then 0 else 1 := by
  simp only [Dec.lead, ← BitVec.toNat_inj, BitVec.toNat_ofNat]
  split <;> simp_all

@[simp] theorem Dec.shamt_toNat (d : Segment) : (Dec.shamt d).toNat = d.toNat - 1 := by
  have hd := d.isLt
  simp only [Dec.shamt, ← BitVec.toNat_inj, BitVec.toNat_ofNat]
  split
  · simp; omega
  · rw [BitVec.toNat_sub, BitVec.toNat_ofNat]; omega

@[simp] theorem Dec.base_toNat (lead : BitVec 1) (dmant : Mantissa) :
    (Dec.base lead dmant).toNat = 32 * lead.toNat + 2 * dmant.toNat + 1 := by
  have hdmant := dmant.isLt
  simp only [Dec.base, BitVec.toNat_append]
  rw [← Nat.shiftLeft_add_eq_or_of_lt hdmant, ← Nat.shiftLeft_add_eq_or_of_lt (by decide)]
  simp only [Nat.shiftLeft_eq, BitVec.toNat_ofNat]
  omega

/-- A shift of at most 6 loses no bit of the base pattern (rule R85). -/
theorem Dec.rmag_toNat (b : BitVec 6) (sh : BitVec 3) (hsh : sh.toNat ≤ 6) :
    (Dec.rmag b sh).toNat = b.toNat * 2 ^ sh.toNat := by
  have hlt : b.toNat * 2 ^ sh.toNat < 2 ^ 12 :=
    calc b.toNat * 2 ^ sh.toNat < 2 ^ 6 * 2 ^ sh.toNat := Nat.mul_lt_mul_of_pos_right b.isLt (by positivity)
      _ ≤ 2 ^ 6 * 2 ^ 6 := Nat.mul_le_mul_left _ (Nat.pow_le_pow_right (by decide) hsh)
      _ = 2 ^ 12 := by decide
  have hb : (b.setWidth 12).toNat = b.toNat := BitVec.toNat_setWidth_of_le (by decide)
  simp only [Dec.rmag, BitVec.toNat_shiftLeft, hb, Nat.shiftLeft_eq, Nat.mod_eq_of_lt hlt]

@[simp] theorem Dec.rmagOf_toNat (t : Codeword) :
    (Dec.rmagOf t).toNat = reconstruct (t.toNat / 16 % 8) (t.toNat % 16) := by
  rw [Dec.rmagOf, Dec.rmag_toNat _ _ (by simp; omega)]
  simp only [Dec.base_toNat, Dec.lead_toNat, Dec.shamt_toNat, Dec.dseg_toNat, Dec.dmant_toNat, reconstruct]
  split <;> simp_all

theorem Dec.restore_toInt (d : Sign) (m : Magnitude) :
    (Dec.restore d m).toInt = if d = 1#1 then (m.toNat : Int) else -(m.toNat : Int) := by
  have hm := m.isLt
  have hw : (m.setWidth 16).toNat = m.toNat := BitVec.toNat_setWidth_of_le (by decide)
  simp only [Dec.restore]
  split
  · rw [BitVec.toInt_eq_toNat_cond, hw]; omega
  · rw [BitVec.toInt_eq_toNat_cond, BitVec.toNat_neg, hw]; omega

theorem Dec.dsign_eq_one_iff (c : Codeword) : Dec.dsign (Dec.t c) = 1#1 ↔ signField c = 1 := by
  rw [← BitVec.toNat_inj, Dec.dsign_toNat, Dec.t_toNat]
  rfl

theorem Dec.linOut_toInt (c : Codeword) : (Dec.linOut c).toInt = sampleOf c := by
  rw [Dec.linOut, Dec.restore_toInt, Dec.rmagOf_toNat, Dec.t_toNat]
  simp only [Dec.dsign_eq_one_iff]
  rfl

/-- Rule R80: the decoder unit computes the arithmetic DECODE. -/
theorem Dec.linOut_eq_ofInt_sampleOf (c : Codeword) : Dec.linOut c = BitVec.ofInt 16 (sampleOf c) := by
  rw [← Dec.linOut_toInt, BitVec.ofInt_toInt]

end Sys2Proof.Machine
end

section
/-!
SUPPORT. What one transaction, a step with an operand waiting, and a run over all waiting operands leave behind.
-/

namespace Sys2Proof.Machine
open Sys2Proof.Spec

/-- One transaction completes, adds its operand's result and leaves the parameter and the waiting operands (rules R29, R32). -/
theorem exec_decodePort (pw : PortWord) (s : State) :
    ∃ t, exec (decodePort pw) s = .next t ∧ t.config = s.config ∧ t.pending = s.pending ∧
      t.results = s.results ++ [resultOf s.config.smallLimit pw] := by
  cases pw with
  | linIn x => exact ⟨_, (execEncode_next_iff x s _).2 rfl, rfl, rfl, by simp [resultOf, Enc.cwOut_eq_codeword]⟩
  | cwIn c => exact ⟨_, (execDecode_next_iff c s _).2 rfl, rfl, rfl, by simp [resultOf, Dec.linOut_eq_ofInt_sampleOf]⟩

/-- A step with an operand waiting performs the transaction of the first one on the state without it (rule R40). -/
theorem step_of_pending_cons {s : State} {pw : PortWord} {rest : List PortWord} (h : s.pending = pw :: rest) :
    step s = exec (decodePort pw) { s with pending := rest } := by
  have hf : s.fetch = some (pw, { s with pending := rest }) := (State.fetch_some_iff s _ pw).2 ⟨rest, h, rfl⟩
  rw [step, hf]

/-- Rule R146: a run over all waiting operands completes and owes nothing; each operand has had its own result, in order. -/
theorem runAll_results (s : State) :
    ∃ t, runAll s = .next t ∧ t.pending = [] ∧ t.config = s.config ∧
      t.results = s.results ++ s.pending.map (resultOf s.config.smallLimit) := by
  induction hp : s.pending generalizing s with
  | nil => exact ⟨s, by rw [runAll, hp]; rfl, hp, rfl, by simp⟩
  | cons pw rest ih =>
    obtain ⟨u, hexec, hconfig, hpending, hresults⟩ := exec_decodePort pw { s with pending := rest }
    obtain ⟨t, hrun, hnil, htc, htr⟩ := ih u hpending
    have hstep : step s = .next u := (step_of_pending_cons hp).trans hexec
    refine ⟨t, ?_, hnil, htc.trans hconfig, ?_⟩
    · rw [runAll, hpending] at hrun
      rw [runAll, hp, List.length_cons, run, hstep]
      exact hrun
    · rw [htr, hresults, hconfig]
      simp

/-- After a run the result at an operand's position is the arithmetic result of that operand alone (rule R32). -/
theorem runAll_result_at {s : State} {i : Nat} {pw : PortWord} (h : s.pending[i]? = some pw) :
    ∃ t, runAll s = .next t ∧ t.results[s.results.length + i]? = some (resultOf s.config.smallLimit pw) := by
  obtain ⟨t, hrun, -, -, hresults⟩ := runAll_results s
  refine ⟨t, hrun, ?_⟩
  rw [hresults, List.getElem?_append_right (Nat.le_add_right _ _), Nat.add_sub_cancel_left, List.getElem?_map, h]
  rfl

end Sys2Proof.Machine
end

section
/-!
PROOFS. The host's sequences (spec/20_memory.md).
-/

namespace Sys2Proof.Machine
open Sys2Proof.Spec

/-- Settles O48: by induction on the waiting operands, a run's results are the image of the operands, in order. -/
theorem resultsInOperandOrder : Obligations.ResultsInOperandOrder := by
  refine ⟨runAll_results, ?_⟩
  intro s s' i j pw hconfig hi hj
  obtain ⟨t, hrun, hr⟩ := runAll_result_at hi
  obtain ⟨t', hrun', hr'⟩ := runAll_result_at hj
  rw [← hconfig] at hr'
  exact ⟨t, t', _, hrun, hrun', hr, hr'⟩

end Sys2Proof.Machine
end

section
/-!
SUPPORT. The transmitted Codeword bit by bit (spec/30_encoding.md rule R47): the fields of the assembled codeword, and what
the mask does to each bit.
-/

namespace Sys2Proof.Machine

theorem Enc.assemble_getLsbD (sign : Sign) (seg : Segment) (mant : Mantissa) (i : Nat) :
    (Enc.assemble sign seg mant).getLsbD i =
      if i < 4 then mant.getLsbD i else if i - 4 < 3 then seg.getLsbD (i - 4) else sign.getLsbD (i - 4 - 3) := by
  simp only [Enc.assemble, BitVec.getLsbD_append]

theorem Enc.invert_getLsbD (v : Codeword) (i : Nat) :
    (Enc.invert v).getLsbD i = (v.getLsbD i ^^ Config.mask.getLsbD i) :=
  BitVec.getLsbD_xor

/-- Each bit of the transmitted Codeword is a bit of one field, flipped where the mask has a 1. -/
theorem Enc.cwOut_getLsbD (lim : SmallLimit) (x : LinearSample) (i : Nat) :
    (Enc.cwOut lim x).getLsbD i =
      ((if i < 4 then (Enc.mant lim (Enc.magOf x)).getLsbD i
        else if i - 4 < 3 then (Enc.seg lim (Enc.magOf x)).getLsbD (i - 4)
        else (Enc.sign x).getLsbD (i - 4 - 3)) ^^ Config.mask.getLsbD i) := by
  rw [Enc.cwOut, Enc.invert_getLsbD, Enc.cwPre, Enc.assemble_getLsbD]

/-- Rules R47, R81: the XOR with the mask is its own inverse. -/
@[simp] theorem Dec.t_invert (v : Codeword) : Dec.t (Enc.invert v) = v := by
  rw [Dec.t, Enc.invert, BitVec.xor_assoc, BitVec.xor_self, BitVec.xor_zero]

end Sys2Proof.Machine
end

section
/-!
PROOFS. The operands and the transmitted Codeword (spec/30_encoding.md).
-/

namespace Sys2Proof.Machine

/-- Settles O5: one transaction completes on every state, and its result has its output port's width. -/
theorem everyOperandIsLegal : Obligations.EveryOperandIsLegal := by
  refine ⟨fun x => ⟨rfl, (Laws.EncodedFits.encode x).1, fun s => ?_⟩,
    fun c => ⟨rfl, (Laws.EncodedFits.decode c).1, fun s => ?_⟩⟩
  · obtain ⟨t, hexec, -, -, hresults⟩ := exec_decodePort (.linIn x) s
    exact ⟨t, _, hexec, hresults, Nat.le_of_lt_succ (BitVec.isLt _)⟩
  · obtain ⟨t, hexec, -, -, hresults⟩ := exec_decodePort (.cwIn c) s
    exact ⟨t, _, hexec, hresults, BitVec.le_toInt _, Int.le_of_lt_add_one BitVec.toInt_lt⟩

/-- Settles O21: `0x55` has its ones at the even bits, and flipping a bit twice restores it. -/
theorem transmittedBitLayout : Obligations.TransmittedBitLayout := by
  refine ⟨fun lim x => ?_, Dec.t_invert, Dec.t_invert⟩
  have hodd : ∀ i ∈ [1, 3, 5, 7], Config.mask.getLsbD i = false := by decide
  have heven : ∀ i ∈ [0, 2, 4, 6], Config.mask.getLsbD i = true := by decide
  simp [Enc.cwOut_getLsbD, hodd, heven, -BitVec.getLsbD_eq_getElem]

end Sys2Proof.Machine
end

section
/-!
SUPPORT. One ENCODE transaction in arithmetic, and the encoder's stages case by case (spec/40_encoder.md rules R60,
R61, R64 to R67).
-/

namespace Sys2Proof.Machine
open Sys2Proof.Spec

/-- Rule R60: all that an ENCODE transaction does, with its result in arithmetic. -/
theorem exec_encode (x : LinearSample) (s : State) :
    exec (.encode x) s = .next (afterEncode s x (codeword s.config.smallLimit x)) :=
  (execEncode_next_iff x s _).2 (by rw [Enc.cwOut_eq_codeword]; rfl)

@[simp] theorem Enc.small_eq_true_iff (lim : SmallLimit) (mag : Magnitude) :
    Enc.small lim mag = true ↔ mag.toNat < lim.value :=
  decide_eq_true_iff

@[simp] theorem Enc.small_eq_false_iff (lim : SmallLimit) (mag : Magnitude) :
    Enc.small lim mag = false ↔ lim.value ≤ mag.toNat := by
  rw [← Bool.not_eq_true, Enc.small_eq_true_iff, Nat.not_lt]

theorem Enc.sign_eq_one_iff (x : LinearSample) : Enc.sign x = 1#1 ↔ 0 ≤ x.toInt := by
  rw [← BitVec.toNat_inj, Enc.sign_toNat, signOf]
  split <;> simp [*]

theorem Enc.sign_eq_zero_iff (x : LinearSample) : Enc.sign x = 0#1 ↔ x.toInt < 0 := by
  rw [← BitVec.toNat_inj, Enc.sign_toNat, signOf]
  split <;> simp_all

theorem Enc.le_msb {v : Magnitude} {k : Nat} (h : 2 ^ k ≤ v.toNat) : k ≤ (Enc.msb v).toNat := by
  have hv : v.toNat ≠ 0 := Nat.ne_of_gt (Nat.lt_of_lt_of_le (by positivity) h)
  exact Enc.msb_toNat v hv ▸ (Nat.le_log2 hv).2 h

theorem Enc.p_of_ge {lim : SmallLimit} {mag : Magnitude} (h : lim.value ≤ mag.toNat) :
    Enc.p lim mag = some (Enc.msb mag) := by
  rw [Enc.p, (Enc.small_eq_false_iff lim mag).2 h]
  rfl

/-- In the general case the Magnitude is at least the threshold, so its highest set bit stands in the window. -/
theorem Enc.msb_in_window {lim : SmallLimit} {mag : Magnitude} (h : lim.value ≤ mag.toNat) :
    4 ≤ (Enc.msb mag).toNat ∧ (lim = .lim32 → 5 ≤ (Enc.msb mag).toNat) := by
  refine ⟨Enc.le_msb (lim.sixteen_le_value.trans h), ?_⟩
  rintro rfl
  exact Enc.le_msb h

theorem Enc.seg_of_ge {lim : SmallLimit} {mag : Magnitude} (h : lim.value ≤ mag.toNat) :
    (Enc.seg lim mag).toNat = Nat.log2 mag.toNat - 4 := by
  rw [Enc.seg_toNat, segmentOf, if_neg (Nat.not_lt.2 h)]

theorem Enc.mant_of_lt {lim : SmallLimit} {mag : Magnitude} (h : mag.toNat < lim.value) :
    (Enc.mant lim mag).toNat = mag.toNat / 2 := by
  rw [Enc.mant_toNat, mantissaOf, if_pos h]

theorem Enc.mant_of_ge {lim : SmallLimit} {mag : Magnitude} (h : lim.value ≤ mag.toNat) :
    (Enc.mant lim mag).toNat = mag.toNat / 2 ^ (Enc.seg lim mag).toNat % 16 := by
  rw [Enc.mant_toNat, mantissaOf, if_neg (Nat.not_lt.2 h), Enc.seg_toNat]

/-- Below the threshold the bits above `mag[4:1]` are 0, so nothing but bit 0 is lost. -/
theorem Enc.mant_eq_extract_of_lt {lim : SmallLimit} {mag : Magnitude} (h : mag.toNat < lim.value) :
    Enc.mant lim mag = mag.extractLsb' 1 4 := by
  have hlim := lim.value_le_thirtyTwo
  refine BitVec.eq_of_toNat_eq ?_
  rw [Enc.mant_of_lt h, BitVec.extractLsb'_toNat, Nat.shiftRight_eq_div_pow]
  omega

theorem Enc.mant_eq_extract_of_ge {lim : SmallLimit} {mag : Magnitude} (h : lim.value ≤ mag.toNat) :
    Enc.mant lim mag = mag.extractLsb' (Enc.seg lim mag).toNat 4 := by
  refine BitVec.eq_of_toNat_eq ?_
  rw [Enc.mant_of_ge h, BitVec.extractLsb'_toNat, Nat.shiftRight_eq_div_pow]

/-- A single set bit leaves nothing for the Mantissa. -/
theorem Enc.seg_mant_two_pow {lim : SmallLimit} {k : Nat} (hk : lim.value ≤ 2 ^ k) (hk11 : k ≤ 11) :
    (Enc.seg lim (BitVec.ofNat 12 (2 ^ k))).toNat = k - 4 ∧ Enc.mant lim (BitVec.ofNat 12 (2 ^ k)) = 0#4 := by
  have hmag : (BitVec.ofNat 12 (2 ^ k)).toNat = 2 ^ k :=
    Nat.mod_eq_of_lt (Nat.pow_lt_pow_right (by decide) (by omega))
  have hk4 : 4 ≤ k := (Nat.pow_le_pow_iff_right Nat.one_lt_two).1 (lim.sixteen_le_value.trans hk)
  have hseg : (Enc.seg lim (BitVec.ofNat 12 (2 ^ k))).toNat = k - 4 := by
    rw [Enc.seg_of_ge (by rwa [hmag]), hmag, Nat.log2_two_pow]
  refine ⟨hseg, BitVec.eq_of_toNat_eq ?_⟩
  rw [Enc.mant_of_ge (by rwa [hmag]), hseg, hmag, Nat.pow_div (by omega) (by decide), Nat.sub_sub_self hk4]
  rfl

/-- The small-magnitude case yields exactly the Mantissas whose doubles lie below the threshold. -/
theorem Enc.exists_small_mant_iff (lim : SmallLimit) (m : Mantissa) :
    (∃ mag, Enc.small lim mag = true ∧ Enc.mant lim mag = m) ↔ 2 * m.toNat < lim.value := by
  simp only [Enc.small_eq_true_iff]
  constructor
  · rintro ⟨mag, hlt, rfl⟩
    rw [Enc.mant_of_lt hlt]
    omega
  · intro h
    have hm := m.isLt
    have hmag : (BitVec.ofNat 12 (2 * m.toNat)).toNat = 2 * m.toNat := by
      rw [BitVec.toNat_ofNat]
      omega
    refine ⟨BitVec.ofNat 12 (2 * m.toNat), by rwa [hmag], BitVec.eq_of_toNat_eq ?_⟩
    rw [Enc.mant_of_lt (by rwa [hmag]), hmag]
    omega

/-- Rule R67: side by side is shift and OR, at any width. -/
theorem setWidth_append_eq_or {m n : Nat} (k : Nat) (x : BitVec m) (y : BitVec n) :
    (x ++ y).setWidth k = (x.setWidth k <<< n) ||| y.setWidth k := by
  refine BitVec.eq_of_getLsbD_eq fun i hi => ?_
  simp only [BitVec.getLsbD_setWidth, BitVec.getLsbD_append, BitVec.getLsbD_or, BitVec.getLsbD_shiftLeft, hi, decide_true,
    Bool.true_and]
  by_cases hlow : i < n
  · simp [hlow]
  · have hx : i - n < k := by omega
    simp [hlow, hx, BitVec.getLsbD_of_ge y i (by omega)]

theorem Enc.assemble_eq_or (sign : Sign) (seg : Segment) (mant : Mantissa) :
    Enc.assemble sign seg mant = (sign.setWidth 8 <<< 7) ||| (seg.setWidth 8 <<< 4) ||| mant.setWidth 8 := by
  calc Enc.assemble sign seg mant
      = (sign ++ seg ++ mant).setWidth 8 := (BitVec.setWidth_eq _).symm
    _ = (sign.setWidth 8 <<< 3 ||| seg.setWidth 8) <<< 4 ||| mant.setWidth 8 := by
      rw [setWidth_append_eq_or, setWidth_append_eq_or]
    _ = (sign.setWidth 8 <<< 7) ||| (seg.setWidth 8 <<< 4) ||| mant.setWidth 8 := by
      rw [BitVec.shiftLeft_or_distrib, ← BitVec.shiftLeft_add]

end Sys2Proof.Machine
end

section
/-!
PROOFS. The operation ENCODE and the encoder's stages (spec/40_encoder.md rules R60, R61, R65 to R68).
-/

namespace Sys2Proof.Machine
open Sys2Proof.Spec

/-- Settles O7: the unit's arithmetic reading put into the one transaction it performs. -/
theorem encodeResult : Obligations.EncodeResult := by
  have h181 (lim : SmallLimit) : codeword lim 181#16 = 0xE3#8 := by
    cases lim <;> decide
  exact ⟨fun s x => exec_encode x s, fun s => by rw [exec_encode, h181]⟩

/-- Settles O17: the position found brackets the Magnitude, and the threshold bounds it from below. -/
theorem segmentDetectorFindsHighestBit : Obligations.SegmentDetectorFindsHighestBit := by
  have hseg {lim : SmallLimit} {mag : Magnitude} (hge : lim.value ≤ mag.toNat) :
      (Enc.seg lim mag).toNat = (Enc.msb mag).toNat - 4 := by
    have hlim := lim.sixteen_le_value
    rw [Enc.seg_of_ge hge, Enc.msb_toNat mag (by omega)]
  refine ⟨fun lim mag hsmall => ?_, fun mag hsmall hzero => ?_, fun lim k => Enc.seg_mant_two_pow, ?_, ?_⟩
  · have hge := (Enc.small_eq_false_iff lim mag).1 hsmall
    have hlim := lim.sixteen_le_value
    obtain ⟨hlow, hhigh⟩ := Enc.msb_bracket mag (by omega)
    obtain ⟨hfour, hfive⟩ := Enc.msb_in_window hge
    exact ⟨Enc.msb mag, Enc.p_of_ge hge, hlow, hhigh, hfour, Enc.msb_le_eleven mag, hfive, hseg hge⟩
  · have hge := (Enc.small_eq_false_iff .lim32 mag).1 hsmall
    have hfive := (Enc.msb_in_window hge).2 rfl
    have hnat := hseg hge
    rw [hzero, BitVec.toNat_ofNat] at hnat
    omega
  · intro lim
    cases lim <;> decide
  · intro lim
    cases lim <;> decide

/-- Settles O18: both cases shift right and keep four bits; Segment 1 shifts by the 1 of the small case. -/
theorem mantissaQuantizerTruncates : Obligations.MantissaQuantizerTruncates := by
  refine ⟨fun lim mag hsmall => ?_, fun lim mag hsmall => ?_, fun m => ?_, fun m => ?_, fun lim mag hseg => ?_, ?_, ?_⟩
  · have hlt := (Enc.small_eq_true_iff lim mag).1 hsmall
    exact ⟨Enc.mant_eq_extract_of_lt hlt, Enc.mant_of_lt hlt⟩
  · have hge := (Enc.small_eq_false_iff lim mag).1 hsmall
    exact ⟨Enc.mant_of_ge hge, Enc.mant_eq_extract_of_ge hge⟩
  · have hm := m.isLt
    exact (Enc.exists_small_mant_iff .lim32 m).2 (by rw [SmallLimit.value]; omega)
  · rw [Enc.exists_small_mant_iff, SmallLimit.value]
    omega
  · obtain hlt | hge := Nat.lt_or_ge mag.toNat lim.value
    · exact Enc.mant_eq_extract_of_lt hlt
    · rw [Enc.mant_eq_extract_of_ge hge, hseg]
      rfl
  · intro lim
    cases lim <;> decide
  · intro lim
    cases lim <;> decide

/-- Settles O13: the Sign is the complement of the sample's sign bit. -/
theorem signHandlerSign : Obligations.SignHandlerSign := by
  refine ⟨fun x => ⟨?_, Enc.sign_eq_one_iff x, Enc.sign_eq_zero_iff x⟩, by decide, by decide, by decide⟩
  simp [Enc.sign]

/-- Settles O19: each concatenation is a shift and an OR, and the two shifts of the Sign add up to 7. -/
theorem codewordAssemblyIsConcatenation : Obligations.CodewordAssemblyIsConcatenation :=
  ⟨fun sign seg mant => ⟨Enc.assemble_toNat sign seg mant, Enc.assemble_eq_or sign seg mant⟩, by decide⟩

/-- Settles O20: `0x55` has its ones at the even bits. -/
theorem xorInverterFlipsEvenBits : Obligations.XorInverterFlipsEvenBits := by
  have hodd : ∀ i ∈ [1, 3, 5, 7], Config.mask.getLsbD i = false := by decide
  have heven : ∀ i ∈ [0, 2, 4, 6], Config.mask.getLsbD i = true := by decide
  refine ⟨fun v => ⟨rfl, fun i hi => ?_, fun i hi => ?_⟩, fun s => rfl, by decide⟩
  · rw [Enc.invert_getLsbD, heven i hi, Bool.xor_true]
  · rw [Enc.invert_getLsbD, hodd i hi, Bool.xor_false]

end Sys2Proof.Machine
end

section
/-!
SUPPORT. One DECODE transaction, and the decoder's stages up to the base pattern (spec/41_decoder.md rules R80, R82 to R84).
-/

namespace Sys2Proof.Machine
open Sys2Proof.Spec

/-- Rule R80: all that a DECODE transaction does. -/
theorem exec_decode (c : Codeword) (s : State) :
    exec (.decode c) s = .next (afterDecode s c (Dec.linOut c)) :=
  (execDecode_next_iff c s _).2 rfl

/-! The field split of rule R82 undoes the assembly of rule R67. -/

@[simp] theorem Dec.dsign_assemble (sign : Sign) (seg : Segment) (mant : Mantissa) :
    Dec.dsign (Enc.assemble sign seg mant) = sign := by
  have hseg := seg.isLt
  have hmant := mant.isLt
  refine BitVec.eq_of_toNat_eq ?_
  rw [Dec.dsign_toNat, Enc.assemble_toNat]
  omega

@[simp] theorem Dec.dseg_assemble (sign : Sign) (seg : Segment) (mant : Mantissa) :
    Dec.dseg (Enc.assemble sign seg mant) = seg := by
  have hseg := seg.isLt
  have hmant := mant.isLt
  refine BitVec.eq_of_toNat_eq ?_
  rw [Dec.dseg_toNat, Enc.assemble_toNat]
  omega

@[simp] theorem Dec.dmant_assemble (sign : Sign) (seg : Segment) (mant : Mantissa) :
    Dec.dmant (Enc.assemble sign seg mant) = mant := by
  have hmant := mant.isLt
  refine BitVec.eq_of_toNat_eq ?_
  rw [Dec.dmant_toNat, Enc.assemble_toNat]
  omega

theorem Dec.lead_eq_zero_iff (d : Segment) : Dec.lead d = 0#1 ↔ d = 0#3 := by
  rw [← BitVec.toNat_inj, ← BitVec.toNat_inj, Dec.lead_toNat]
  split <;> simp [*]

theorem Dec.shamt_le_six (d : Segment) : (Dec.shamt d).toNat ≤ 6 := by
  have hd := d.isLt
  rw [Dec.shamt_toNat]
  omega

/-- Rule R84: the base pattern as shifts and ORs, for either leading bit. -/
theorem Dec.base_eq_or (lead : BitVec 1) (dmant : Mantissa) :
    Dec.base lead dmant = (lead.setWidth 6 <<< 5) ||| (dmant.setWidth 6 <<< 1) ||| 1#6 := by
  calc Dec.base lead dmant
      = (lead ++ dmant ++ 1#1).setWidth 6 := (BitVec.setWidth_eq _).symm
    _ = (lead.setWidth 6 <<< 4 ||| dmant.setWidth 6) <<< 1 ||| 1#6 := by
      rw [setWidth_append_eq_or, setWidth_append_eq_or]
      rfl
    _ = (lead.setWidth 6 <<< 5) ||| (dmant.setWidth 6 <<< 1) ||| 1#6 := by
      rw [BitVec.shiftLeft_or_distrib, ← BitVec.shiftLeft_add]

theorem Dec.base_zero_eq_or (dmant : Mantissa) : Dec.base 0#1 dmant = (dmant.setWidth 6 <<< 1) ||| 1#6 := by
  have hlead : (0#1).setWidth 6 <<< 5 = 0#6 := rfl
  rw [Dec.base_eq_or, hlead, BitVec.zero_or]

theorem Dec.base_one_eq_or (dmant : Mantissa) : Dec.base 1#1 dmant = 0x21#6 ||| (dmant.setWidth 6 <<< 1) := by
  have hlead : (1#1).setWidth 6 <<< 5 ||| 1#6 = 0x21#6 := rfl
  rw [Dec.base_eq_or, BitVec.or_assoc, BitVec.or_comm _ 1#6, ← BitVec.or_assoc, hlead]

/-- Rule R84: the half step at the right end of the pattern. -/
theorem Dec.base_getLsbD_zero (lead : BitVec 1) (dmant : Mantissa) : (Dec.base lead dmant).getLsbD 0 = true := by
  rw [Dec.base, BitVec.getLsbD_append]
  rfl

end Sys2Proof.Machine
end

section
/-!
PROOFS. The operation DECODE and the decoder's stages (spec/41_decoder.md rules R80, R82 to R84).
-/

namespace Sys2Proof.Machine

/-- Settles O8: the one transaction that DEC performs, its sample read in arithmetic. -/
theorem decodeResult : Obligations.DecodeResult := by
  have hE3 : Dec.linOut 0xE3#8 = 180#16 := by decide
  exact ⟨fun s c => ⟨Dec.linOut c, exec_decode c s, Dec.linOut_toInt c⟩, fun s => by rw [exec_decode, hE3]⟩

/-- Settles O27: the fields as quotients and remainders; the assembled codeword has any three fields wanted. -/
theorem fieldExtraction : Obligations.FieldExtraction := by
  refine ⟨fun t => ⟨Dec.dsign_toNat t, Dec.dseg_toNat t, Dec.dmant_toNat t⟩, fun sign seg mant => ?_, by decide⟩
  exact ⟨Enc.assemble sign seg mant, Dec.dsign_assemble .., Dec.dseg_assemble .., Dec.dmant_assemble ..⟩

/-- Settles O29: the eight rows by evaluation, the two bounds from the values of the leading one and the shift. -/
theorem segmentToExponentTable : Obligations.SegmentToExponentTable :=
  ⟨by decide, Dec.lead_eq_zero_iff, Dec.shamt_le_six⟩

/-- Settles O30: the value of the pattern gives oddness and the ranges, its concatenations the spellings with OR. -/
theorem basePatternIsOdd : Obligations.BasePatternIsOdd := by
  refine ⟨Dec.base_toNat, fun m => ⟨Dec.base_zero_eq_or m, Dec.base_one_eq_or m⟩,
    fun lead m => ⟨Dec.base_getLsbD_zero lead m, ?_⟩, fun m => ?_, by decide⟩
  · rw [Dec.base_toNat]
    omega
  · have hm := m.isLt
    rw [Dec.base_toNat, Dec.base_toNat, BitVec.toNat_ofNat, BitVec.toNat_ofNat]
    omega

end Sys2Proof.Machine
end

section
/-!
SUPPORT. The two operations one after the other: the transactions as `Gives` and `RoundTrip` state them, a Codeword's fields,
and what the encoder's arithmetic makes of a reconstructed magnitude (spec/42_codec_laws.md).
-/

namespace Sys2Proof.Spec
open Sys2Proof.Machine

/-! ## A Codeword is its three fields (rules R46, R67, R82) -/

theorem unmask_eq_fields (c : Codeword) : unmask c = 128 * signField c + 16 * segField c + mantField c := by
  rw [signField, segField, mantField]
  omega

theorem signField_lt_two (c : Codeword) : signField c < 2 := by
  have hc : unmask c < 256 := BitVec.isLt _
  rw [signField]
  omega

theorem mantField_lt_sixteen (c : Codeword) : mantField c < 16 := Nat.mod_lt _ (by decide)

theorem eq_of_fields_eq {c c' : Codeword} (hsign : signField c = signField c') (hseg : segField c = segField c')
    (hmant : mantField c = mantField c') : c = c' := by
  have hunmask : unmask c = unmask c' := by
    rw [unmask_eq_fields c, unmask_eq_fields c', hsign, hseg, hmant]
  exact (BitVec.xor_left_inj _).1 (BitVec.eq_of_toNat_eq hunmask)

@[simp] theorem t_codeword (lim : SmallLimit) (x : LinearSample) : Dec.t (codeword lim x) = Enc.cwPre lim x := by
  rw [← Enc.cwOut_eq_codeword, Enc.cwOut, Dec.t_invert]

@[simp] theorem signField_codeword (lim : SmallLimit) (x : LinearSample) : signField (codeword lim x) = signOf x := by
  rw [signField, ← Dec.t_toNat, ← Dec.dsign_toNat, t_codeword, Enc.cwPre, Dec.dsign_assemble, Enc.sign_toNat]

@[simp] theorem segField_codeword (lim : SmallLimit) (x : LinearSample) :
    segField (codeword lim x) = segmentOf lim.value (magnitude x) := by
  rw [segField, ← Dec.t_toNat, ← Dec.dseg_toNat, t_codeword, Enc.cwPre, Dec.dseg_assemble, Enc.seg_toNat, Enc.magOf_toNat]

@[simp] theorem mantField_codeword (lim : SmallLimit) (x : LinearSample) :
    mantField (codeword lim x) = mantissaOf lim.value (magnitude x) := by
  rw [mantField, ← Dec.t_toNat, ← Dec.dmant_toNat, t_codeword, Enc.cwPre, Dec.dmant_assemble, Enc.mant_toNat, Enc.magOf_toNat]

/-! ## The decoded sample -/

theorem reconstruct_pos (k m : Nat) : 0 < reconstruct k m := by
  rw [reconstruct]
  split <;> positivity

theorem reconstruct_fields_lt (c : Codeword) : reconstruct (segField c) (mantField c) < 4096 :=
  (Dec.rmagOf_toNat (Dec.t c)).symm.trans_lt (BitVec.isLt _)

theorem natAbs_sampleOf (c : Codeword) : (sampleOf c).natAbs = reconstruct (segField c) (mantField c) := by
  rw [sampleOf]
  split <;> simp

@[simp] theorem magnitude_linOut (c : Codeword) :
    magnitude (Dec.linOut c) = reconstruct (segField c) (mantField c) := by
  rw [magnitude, Dec.linOut_toInt, natAbs_sampleOf]
  exact Nat.min_eq_left (Nat.le_of_lt_succ (reconstruct_fields_lt c))

@[simp] theorem signOf_linOut (c : Codeword) : signOf (Dec.linOut c) = signField c := by
  have hpos := reconstruct_pos (segField c) (mantField c)
  have hsign := signField_lt_two c
  rw [signOf, Dec.linOut_toInt, sampleOf]
  split_ifs <;> omega

/-! ## Segment and Mantissa of a Magnitude -/

/-- Segment 0 holds the Magnitudes below 32, whichever threshold the design has (rule R73). -/
theorem segmentOf_eq_zero_iff (lim : SmallLimit) (v : Nat) : segmentOf lim.value v = 0 ↔ v < 32 := by
  have hlow := lim.sixteen_le_value
  have hhigh := lim.value_le_thirtyTwo
  rw [segmentOf]
  split
  · omega
  · have hlog : Nat.log2 v < 5 ↔ v < 2 ^ 5 := Nat.log2_lt (by omega)
    omega

theorem mantissaOf_of_lt_thirtyTwo {lim : SmallLimit} {v : Nat} (hv : v < 32) :
    mantissaOf lim.value v = if v < lim.value then v / 2 else v % 16 := by
  rw [mantissaOf, (segmentOf_eq_zero_iff lim v).2 hv, pow_zero, Nat.div_one]

/-- The reconstructed magnitude of a higher Segment stands in that Segment's octave. -/
theorem reconstruct_succ_bracket {m : Nat} (hm : m < 16) (k : Nat) :
    2 ^ (k + 5) ≤ reconstruct (k + 1) m ∧ reconstruct (k + 1) m < 2 ^ (k + 6) := by
  rw [reconstruct, if_neg (Nat.succ_ne_zero k), Nat.add_sub_cancel, Nat.add_comm k 5, Nat.add_comm k 6, pow_add, pow_add]
  exact ⟨Nat.mul_le_mul_right _ (by omega), Nat.mul_lt_mul_of_pos_right (by omega) (by positivity)⟩

theorem value_le_reconstruct_succ (lim : SmallLimit) {m : Nat} (hm : m < 16) (k : Nat) :
    lim.value ≤ reconstruct (k + 1) m :=
  calc lim.value ≤ 2 ^ 5 := lim.value_le_thirtyTwo
    _ ≤ 2 ^ (k + 5) := Nat.pow_le_pow_right (by decide) (by omega)
    _ ≤ reconstruct (k + 1) m := (reconstruct_succ_bracket hm k).1

/-- Re-encoding finds the Segment that the magnitude was reconstructed from. -/
theorem segmentOf_reconstruct (lim : SmallLimit) {m : Nat} (hm : m < 16) (k : Nat) :
    segmentOf lim.value (reconstruct k m) = k := by
  cases k with
  | zero =>
    rw [segmentOf_eq_zero_iff, reconstruct, if_pos rfl]
    omega
  | succ k =>
    have hlog : Nat.log2 (reconstruct (k + 1) m) = k + 5 :=
      (Nat.log2_eq_iff (reconstruct_pos _ _).ne').2 (reconstruct_succ_bracket hm k)
    rw [segmentOf, if_neg (Nat.not_lt.2 (value_le_reconstruct_succ lim hm k)), hlog]
    rfl

/-- Above Segment 0 it finds the Mantissa too: the half step at the right end of the base pattern is shifted out. -/
theorem mantissaOf_reconstruct_succ (lim : SmallLimit) {m : Nat} (hm : m < 16) (k : Nat) :
    mantissaOf lim.value (reconstruct (k + 1) m) = m := by
  have hdiv : reconstruct (k + 1) m / 2 ^ (k + 1) = (32 + 2 * m + 1) / 2 := by
    rw [reconstruct, if_neg (Nat.succ_ne_zero k), Nat.add_sub_cancel, pow_succ',
      Nat.mul_div_mul_right _ _ (by positivity)]
  rw [mantissaOf, if_neg (Nat.not_lt.2 (value_le_reconstruct_succ lim hm k)), segmentOf_reconstruct lim hm, hdiv]
  omega

/-- In Segment 0 it does not where threshold 16 sends the odd magnitude `2m + 1` to the unhalved Mantissa `2m + 1 - 16`. -/
theorem mantissaOf_reconstruct_zero_iff (lim : SmallLimit) {m : Nat} (hm : m < 16) :
    mantissaOf lim.value (reconstruct 0 m) = m ↔ ¬(lim = .lim16 ∧ 8 ≤ m ∧ m ≤ 14) := by
  rw [reconstruct, if_pos rfl, mantissaOf_of_lt_thirtyTwo (by omega)]
  cases lim with
  | lim16 =>
    rw [SmallLimit.value]
    simp only [true_and]
    split <;> omega
  | lim32 =>
    rw [SmallLimit.value, if_pos (by omega)]
    simp only [reduceCtorEq, false_and, not_false_eq_true, iff_true]
    omega

/-- Rules R105, R108: a Codeword is a fixed point of decode-then-encode but for threshold 16 and seven Mantissas of
Segment 0. -/
theorem codeword_linOut_eq_iff (lim : SmallLimit) (c : Codeword) :
    codeword lim (Dec.linOut c) = c ↔ ¬(lim = .lim16 ∧ segField c = 0 ∧ 8 ≤ mantField c ∧ mantField c ≤ 14) := by
  have hm := mantField_lt_sixteen c
  have hmant : codeword lim (Dec.linOut c) = c ↔
      mantissaOf lim.value (reconstruct (segField c) (mantField c)) = mantField c := by
    constructor
    · intro heq
      rw [← magnitude_linOut, ← mantField_codeword, heq]
    · intro heq
      refine eq_of_fields_eq ?_ ?_ ?_
      · rw [signField_codeword, signOf_linOut]
      · rw [segField_codeword, magnitude_linOut, segmentOf_reconstruct lim hm]
      · rw [mantField_codeword, magnitude_linOut, heq]
  rw [hmant]
  cases segField c with
  | zero => simp [mantissaOf_reconstruct_zero_iff lim hm]
  | succ k => simp [mantissaOf_reconstruct_succ lim hm]

/-- Under threshold 16 those Codewords belong to the magnitudes 24 to 30. -/
theorem exception_fields_iff (x : LinearSample) :
    (segField (codeword .lim16 x) = 0 ∧ 8 ≤ mantField (codeword .lim16 x) ∧ mantField (codeword .lim16 x) ≤ 14) ↔
      24 ≤ x.toInt.natAbs ∧ x.toInt.natAbs ≤ 30 := by
  rw [segField_codeword, mantField_codeword, segmentOf_eq_zero_iff]
  by_cases hv : magnitude x < 32
  · rw [mantissaOf_of_lt_thirtyTwo hv, SmallLimit.value]
    rw [magnitude] at hv ⊢
    split <;> omega
  · rw [magnitude] at hv ⊢
    omega

end Sys2Proof.Spec

namespace Sys2Proof.Machine
open Sys2Proof.Spec

/-! ## Transactions in a row (rules R53, R142) -/

theorem step_present (s : State) (pw : PortWord) : step (s.present pw) = exec (decodePort pw) s :=
  step_of_pending_cons (State.present_pending s pw)

theorem gives_encode (s : State) (x : LinearSample) :
    Gives s (.linIn x) (.cwOut (codeword s.config.smallLimit x)) (afterEncode s x (codeword s.config.smallLimit x)) :=
  ⟨(step_present s _).trans (exec_encode x s), rfl⟩

theorem gives_decode (s : State) (c : Codeword) :
    Gives s (.cwIn c) (.linOut (Dec.linOut c)) (afterDecode s c (Dec.linOut c)) :=
  ⟨(step_present s _).trans (exec_decode c s), rfl⟩

/-- Two transactions in a row complete on every state and leave the design parameter. -/
theorem exists_roundTrip (s : State) (x : LinearSample) :
    ∃ t, RoundTrip s x (codeword s.config.smallLimit x) (Dec.linOut (codeword s.config.smallLimit x)) t ∧
      t.config = s.config :=
  ⟨_, ⟨_, gives_encode s x, gives_decode _ _⟩, rfl⟩

/-- A round trip known by its pre-mask codeword (rules R68, R81). -/
theorem exists_roundTrip_of_cwPre {s : State} {x y : LinearSample} {p : Codeword}
    (hp : Enc.cwPre s.config.smallLimit x = p) (hy : Dec.linOut (p ^^^ 0x55#8) = y) :
    ∃ t, RoundTrip s x (p ^^^ 0x55#8) y t := by
  have hc : codeword s.config.smallLimit x = p ^^^ 0x55#8 := by
    rw [← Enc.cwOut_eq_codeword, Enc.cwOut, hp]
    rfl
  obtain ⟨t, ht, -⟩ := exists_roundTrip s x
  rw [hc, hy] at ht
  exact ⟨t, ht⟩

end Sys2Proof.Machine
end

section
/-!
PROOFS. Laws of the two operations together (spec/42_codec_laws.md rules R104, R109).
-/

namespace Sys2Proof.Machine
open Sys2Proof.Spec

/-- Settles O41: which Codewords decode-then-encode does not keep, and which samples have one of those. -/
theorem roundTripIsIdempotent : Obligations.RoundTripIsIdempotent := by
  intro s x
  obtain ⟨t, ht, hconfig⟩ := exists_roundTrip s x
  refine ⟨_, _, t, _, _, ht, gives_encode t _, ?_⟩
  rw [hconfig, codeword_linOut_eq_iff]
  refine not_congr (and_congr_right fun hlim => ?_)
  rw [hlim]
  exact exception_fields_iff x

/-- Settles O46: the three pre-mask codewords under each threshold, then their round trips and the decoder's signals. -/
theorem knownVectors : Obligations.KnownVectors := by
  intro s
  have h3 (lim : SmallLimit) : Enc.cwPre lim 3#16 = 0b10000001#8 := by
    cases lim <;> decide
  have h181 (lim : SmallLimit) : Enc.cwPre lim 181#16 = 0b10110110#8 := by
    cases lim <;> decide
  have h1910 (lim : SmallLimit) : Enc.cwPre lim 1910#16 = 0b11101101#8 := by
    cases lim <;> decide
  exact ⟨exists_roundTrip_of_cwPre (h3 _) (by decide), exists_roundTrip_of_cwPre (h181 _) (by decide),
    exists_roundTrip_of_cwPre (h1910 _) (by decide), h3 _, h181 _, h1910 _, by decide⟩

end Sys2Proof.Machine
end

section
/-!
SUPPORT. A sample as the encoder sees it: its Sign and its Magnitude, and nothing else of it (spec/40_encoder.md rules R60,
R61, R63; spec/60_exceptions.md rule R121).
-/

namespace Sys2Proof.Spec
open Sys2Proof.Machine

theorem codeword_eq_of_sign_magnitude_eq (lim : SmallLimit) {x y : LinearSample} (hsign : signOf x = signOf y)
    (hmag : magnitude x = magnitude y) : codeword lim x = codeword lim y := by
  rw [codeword, codeword, preMask, preMask, hsign, hmag]

theorem magnitude_eq_of_ge {x : LinearSample} (h : 4095 ≤ x.toInt.natAbs) : magnitude x = 4095 :=
  Nat.min_eq_right h

/-- The largest sample that is not clipped, with the sign of `x`: the operand that rule R121 compares `x` with. -/
def fullScale (x : LinearSample) : LinearSample := if 0 ≤ x.toInt then 4095#16 else BitVec.ofInt 16 (-4095)

@[simp] theorem signOf_fullScale (x : LinearSample) : signOf (fullScale x) = signOf x := by
  by_cases hx : 0 ≤ x.toInt
  · rw [fullScale, if_pos hx, signOf, signOf, if_pos hx]
    decide
  · rw [fullScale, if_neg hx, signOf, signOf, if_neg hx]
    decide

@[simp] theorem magnitude_fullScale (x : LinearSample) : magnitude (fullScale x) = 4095 := by
  rw [fullScale]
  split <;> decide

/-- Rule R63: out of range, the clamped result is that of the largest sample of the same sign. -/
theorem codeword_eq_codeword_fullScale (lim : SmallLimit) {x : LinearSample} (h : 4095 ≤ x.toInt.natAbs) :
    codeword lim x = codeword lim (fullScale x) :=
  codeword_eq_of_sign_magnitude_eq lim (signOf_fullScale x).symm ((magnitude_eq_of_ge h).trans (magnitude_fullScale x).symm)

end Sys2Proof.Spec
end

section
/-!
PROOFS. What an out-of-range sample leaves behind (spec/60_exceptions.md rule R121).
-/

namespace Sys2Proof.Machine
open Sys2Proof.Spec

/-- Settles O47: the two transactions collect the same Codeword, so only the operand on the port tells them apart. -/
theorem saturationLeavesNoTrace : Obligations.SaturationLeavesNoTrace := by
  intro s x hx
  refine ⟨_, _, exec_encode x s, exec_encode (fullScale x) s, ?_⟩
  rw [codeword_eq_codeword_fullScale s.config.smallLimit hx.le]
  rfl

end Sys2Proof.Machine
end

section
/-!
SUPPORT. A bare pattern of bits and the port word it stands for, and a written transaction line case by case
(spec/30_encoding.md rules R40, R53; notes/assumptions/6.md).
-/

namespace Sys2Proof

/-! ## Patterns read by their width -/

/-- Rule R50: what stands on a port is never rejected. -/
@[simp] theorem portWordOfBits_width_bits (pw : PortWord) : portWordOfBits pw.width pw.bits = .ok pw := by
  cases pw with
  | linIn v => simp [portWordOfBits, PortWord.width, PortWord.bits, v.isLt]
  | cwIn v => simp [portWordOfBits, PortWord.width, PortWord.bits, v.isLt]

/-- Only a port word's own width and bits are read as that port word. -/
theorem portWordOfBits_eq_ok_iff (nbits w : Nat) (pw : PortWord) :
    portWordOfBits nbits w = .ok pw ↔ (pw.width, pw.bits) = (nbits, w) := by
  constructor
  · intro h
    rw [portWordOfBits] at h
    split_ifs at h with h16 hw h8 hw
    · cases h
      rw [PortWord.width, PortWord.bits, BitVec.toNat_ofNat, Nat.mod_eq_of_lt hw, h16]
    · cases h
      rw [PortWord.width, PortWord.bits, BitVec.toNat_ofNat, Nat.mod_eq_of_lt hw, h8]
  · rintro ⟨⟩
    exact portWordOfBits_width_bits pw

theorem exists_portWordOfBits_iff (nbits w : Nat) : (∃ pw, portWordOfBits nbits w = .ok pw) ↔ bitsWf nbits w = true := by
  simp only [portWordOfBits, bitsWf, Bool.and_eq_true, Bool.or_eq_true, beq_iff_eq, decide_eq_true_eq]
  split_ifs with h16 hw h8 hw
  · simpa [h16] using hw
  · simpa [h16] using hw
  · simpa [h8] using hw
  · simpa [h8] using hw
  · simp [h16, h8]

@[simp] theorem decodePort_encodePort (i : Instr) : decodePort (encodePort i) = i := by
  cases i <;> rfl

@[simp] theorem encodePort_decodePort (pw : PortWord) : encodePort (decodePort pw) = pw := by
  cases pw <;> rfl

theorem decodeTableWord_eq_some_iff (nbits w : Nat) (i : Instr) :
    decodeTableWord nbits w = some i ↔ portWordOfBits nbits w = .ok (encodePort i) := by
  rw [decodeTableWord, decodeBits]
  cases portWordOfBits nbits w with
  | error e => simp
  | ok pw =>
    simp only [Option.some.injEq, Except.ok.injEq]
    constructor
    · rintro rfl
      rw [encodePort_decodePort]
    · rintro rfl
      rw [decodePort_encodePort]

/-- A table word is read as an instruction exactly when it is that instruction's encoding. -/
theorem decodeTableWord_eq_some_iff_encode (nbits w : Nat) (i : Instr) :
    decodeTableWord nbits w = some i ↔ encodeTableWord i = (nbits, w) := by
  rw [decodeTableWord_eq_some_iff, portWordOfBits_eq_ok_iff, encodeTableWord]

theorem decodeTableWord_eq_none_iff (nbits w : Nat) : decodeTableWord nbits w = none ↔ bitsWf nbits w = false := by
  rw [← Bool.not_eq_true, ← exists_portWordOfBits_iff, Option.eq_none_iff_forall_ne_some, not_exists]
  simp only [ne_eq, decodeTableWord_eq_some_iff]
  exact ⟨fun h pw => encodePort_decodePort pw ▸ h (decodePort pw), fun h i => h (encodePort i)⟩

/-! ## Written transaction lines -/

theorem assemble_of_wf_false {l : Line} (h : l.wf = false) : assemble l = none :=
  if_neg (Bool.not_eq_true _ ▸ h)

theorem assemble_encInt {n : Int} (h : -32768 ≤ n ∧ n ≤ 32767) :
    assemble (.encInt n) = some (.encode (BitVec.ofInt 16 n)) :=
  if_pos (decide_eq_true h)

theorem assemble_encHex {v : Nat} (h : v < 0x10000) : assemble (.encHex v) = some (.encode (BitVec.ofNat 16 v)) :=
  if_pos (decide_eq_true h)

theorem assemble_decInt {n : Int} (h : 0 ≤ n ∧ n ≤ 255) : assemble (.decInt n) = some (.decode (BitVec.ofInt 8 n)) :=
  if_pos (decide_eq_true h)

theorem assemble_decHex {v : Nat} (h : v < 0x100) : assemble (.decHex v) = some (.decode (BitVec.ofNat 8 v)) :=
  if_pos (decide_eq_true h)

/-- A 16-bit two's-complement value is read back as written. -/
theorem toInt_ofInt_sixteen {n : Int} (hlow : -32768 ≤ n) (hhigh : n ≤ 32767) : (BitVec.ofInt 16 n).toInt = n :=
  BitVec.toInt_ofInt_eq_self (by decide) hlow (by omega)

end Sys2Proof

namespace Sys2Proof.Machine

/-- A table word that the decoder reads is presented on the port of its instruction. -/
theorem State.withFetchWord_of_decode {nbits w : Nat} {i : Instr} (h : decodeTableWord nbits w = some i) (s : State) :
    s.withFetchWord nbits w = s.present (encodePort i) := by
  rw [State.withFetchWord, (decodeTableWord_eq_some_iff nbits w i).1 h]

theorem step_of_pending_nil {s : State} (h : s.pending = []) : step s = .next s := by
  rw [step, (State.fetch_none_iff s).2 h]

end Sys2Proof.Machine
end

section
/-!
PROOFS. Patterns, table words and written transaction lines (spec/30_encoding.md).
-/

namespace Sys2Proof.Machine

/-- Settles O4: a table word decodes to an instruction exactly when it is that instruction's encoding. -/
theorem decodeIsInverseOfEncode : Obligations.DecodeIsInverseOfEncode :=
  ⟨fun i => (decodeTableWord_eq_some_iff_encode _ _ i).2 rfl, decodePort_encodePort, encodePort_decodePort,
    fun nbits w i => (decodeTableWord_eq_some_iff_encode nbits w i).1, decodeTableWord_eq_none_iff⟩

/-- Settles O2: the operand waiting first is fetched and performed; a word the decoder reads is put there. -/
theorem stepRunsPresentedTransaction : Obligations.StepRunsPresentedTransaction := by
  refine ⟨fun s pw rest => step_of_pending_cons, fun s nbits w i hdec => ?_, fun s => step_of_pending_nil⟩
  rw [State.withFetchWord_of_decode hdec, step_present, decodePort_encodePort]

/-- Settles O3: each of the seven patterns by evaluation. -/
theorem tablePatternsDecode : Obligations.TablePatternsDecode := by
  unfold Obligations.TablePatternsDecode
  decide

/-- Settles O6: in range the literal fits its width and is read back unchanged; out of range the line is ill formed. -/
theorem notationReadsLiterals : Obligations.NotationReadsLiterals := by
  refine ⟨fun n hlow hhigh => ?_, fun n hn => ?_, fun v hv => ?_, fun v hv => ?_, fun n hlow hhigh => ?_, fun n hn => ?_,
    fun v hv => ?_, fun v hv => ?_⟩
  · exact ⟨_, assemble_encInt ⟨hlow, hhigh⟩, toInt_ofInt_sixteen hlow hhigh⟩
  · exact assemble_of_wf_false (decide_eq_false (by omega))
  · exact ⟨_, assemble_encHex hv, Nat.mod_eq_of_lt hv⟩
  · exact assemble_of_wf_false (decide_eq_false (by omega))
  · refine ⟨_, assemble_decInt ⟨hlow, hhigh⟩, ?_⟩
    rw [BitVec.toNat_ofInt]
    omega
  · exact assemble_of_wf_false (decide_eq_false (by omega))
  · exact ⟨_, assemble_decHex hv, Nat.mod_eq_of_lt hv⟩
  · exact assemble_of_wf_false (decide_eq_false (by omega))

end Sys2Proof.Machine
end

section
/-!
SUPPORT. The decoded sample as the midpoint of its cell (spec/41_decoder.md rules R85 to R88).
-/

namespace Sys2Proof.Spec
open Sys2Proof.Machine

theorem segField_lt_eight (c : Codeword) : segField c < 8 := Nat.mod_lt _ (by decide)

/-- Rule R87: the half step at the right end of the base pattern is half a cell. -/
theorem reconstruct_eq_midpoint (k m : Nat) : reconstruct k m = cellLow k m + cellWidth k / 2 := by
  cases k with
  | zero => rfl
  | succ k =>
    have hhalf : 2 ^ (k + 1) / 2 = 2 ^ k := Nat.mul_div_cancel _ (by decide)
    simp only [reconstruct, cellLow, cellWidth, Nat.succ_ne_zero, if_false, hhalf, Nat.add_sub_cancel]
    ring

theorem reconstruct_le {k m : Nat} (hk : k < 8) (hm : m < 16) : reconstruct k m ≤ 4032 := by
  rw [reconstruct]
  split
  · omega
  · calc (32 + 2 * m + 1) * 2 ^ (k - 1) ≤ 63 * 2 ^ 6 :=
          Nat.mul_le_mul (by omega) (Nat.pow_le_pow_right (by decide) (by omega))
      _ = 4032 := by decide

theorem natAbs_linOut (c : Codeword) : (Dec.linOut c).toInt.natAbs = reconstruct (segField c) (mantField c) := by
  rw [Dec.linOut_toInt, natAbs_sampleOf]

theorem natAbs_linOut_le (c : Codeword) : (Dec.linOut c).toInt.natAbs ≤ 4032 := by
  rw [natAbs_linOut]
  exact reconstruct_le (segField_lt_eight c) (mantField_lt_sixteen c)

theorem natAbs_linOut_pos (c : Codeword) : 1 ≤ (Dec.linOut c).toInt.natAbs := by
  rw [natAbs_linOut]
  exact reconstruct_pos _ _

theorem linOut_ne_zero (c : Codeword) : Dec.linOut c ≠ 0#16 := by
  intro hzero
  have hpos := natAbs_linOut_pos c
  rw [hzero] at hpos
  exact absurd hpos (by decide)

/-- Rule R88: one more result keeps the collected samples among the decoder's if it is a Codeword or one of them. -/
theorem SamplesInImage.append {s t : State} {r : PortResult} (hs : SamplesInImage s) (ht : t.results = s.results ++ [r])
    (hr : ∀ y, r = .linOut y → ∃ c, y = Dec.linOut c) : SamplesInImage t := by
  intro y hy
  rw [ht, List.mem_append, List.mem_singleton] at hy
  obtain hold | hnew := hy
  · exact hs y hold
  · obtain ⟨c, rfl⟩ := hr y hnew.symm
    exact ⟨⟨_, _, segField_lt_eight c, mantField_lt_sixteen c, (natAbs_linOut c).trans (reconstruct_eq_midpoint _ _)⟩,
      linOut_ne_zero c, natAbs_linOut_le c⟩

end Sys2Proof.Spec
end

section
/-!
SUPPORT. Any step, and a stream handed over behind the operands that wait (spec/20_memory.md rules R32, R36).
-/

namespace Sys2Proof.Machine
open Sys2Proof.Spec

/-- A step is idle, or it answers the first waiting operand with that operand's own result (rules R29, R32). -/
theorem step_idle_or_answers {s t : State} (h : step s = .next t) :
    (s.pending = [] ∧ t = s) ∨
    (∃ pw rest, s.pending = pw :: rest ∧ t.pending = rest ∧ t.config = s.config ∧
      t.results = s.results ++ [resultOf s.config.smallLimit pw]) := by
  cases hp : s.pending with
  | nil =>
    rw [step_of_pending_nil hp] at h
    cases h
    exact .inl ⟨rfl, rfl⟩
  | cons pw rest =>
    obtain ⟨u, hexec, hconfig, hpending, hresults⟩ := exec_decodePort pw { s with pending := rest }
    rw [step_of_pending_cons hp, hexec] at h
    cases h
    exact .inr ⟨pw, rest, rfl, hpending, hconfig, hresults⟩

theorem exists_step (s : State) : ∃ t, step s = .next t := by
  cases hp : s.pending with
  | nil => exact ⟨s, step_of_pending_nil hp⟩
  | cons pw rest =>
    obtain ⟨t, hexec, -⟩ := exec_decodePort pw { s with pending := rest }
    exact ⟨t, (step_of_pending_cons hp).trans hexec⟩

theorem run_succ_of_step {s t : State} (h : step s = .next t) (k : Nat) : run (k + 1) s = run k t := by
  rw [run, h]

/-- What waits behind does not enter a transaction. -/
theorem exec_load {i : Instr} {s t : State} (h : exec i s = .next t) (l : List PortWord) :
    exec i (s.load l) = .next (t.load l) := by
  cases i with
  | encode x => rw [exec_encode] at h ⊢; cases h; rfl
  | decode c => rw [exec_decode] at h ⊢; cases h; rfl

@[simp] theorem State.load_append (s : State) (l l' : List PortWord) : (s.load l).load l' = s.load (l ++ l') := by
  simp [State.load]

theorem State.load_nil_of_pending_nil {s : State} (h : s.pending = []) : s.load [] = s :=
  State.ext_fields rfl rfl rfl (by simp [h]) rfl

/-- The operands that wait are answered before a stream handed over behind them. -/
theorem runAll_load {s t : State} (h : runAll s = .next t) (l : List PortWord) : runAll (s.load l) = runAll (t.load l) := by
  induction hp : s.pending generalizing s with
  | nil =>
    rw [runAll, hp, List.length_nil, run] at h
    cases h
    rfl
  | cons pw rest ih =>
    obtain ⟨u, hexec, -, hpending, -⟩ := exec_decodePort pw { s with pending := rest }
    have hstep : step s = .next u := (step_of_pending_cons hp).trans hexec
    have hstepLoad : step (s.load l) = .next (u.load l) := by
      rw [step_of_pending_cons (s := s.load l) (rest := rest ++ l) (by rw [State.load_pending, hp, List.cons_append])]
      exact exec_load hexec l
    have hrest : runAll u = .next t := by
      rw [runAll, hp, List.length_cons, run_succ_of_step hstep] at h
      rwa [runAll, hpending]
    calc runAll (s.load l) = run ((u.load l).pending.length + 1) (s.load l) := by
          rw [runAll, State.load_pending, State.load_pending, hp, hpending, List.cons_append, List.length_cons]
      _ = runAll (u.load l) := run_succ_of_step hstepLoad _
      _ = runAll (t.load l) := ih hrest hpending

/-- Rule R36: chunk after chunk, or all at once. -/
theorem runChunks_eq_runAll (chunks : List (List PortWord)) {s : State} (hs : s.pending = []) :
    runChunks chunks s = runAll (s.load chunks.flatten) := by
  induction chunks generalizing s with
  | nil => rw [List.flatten_nil, State.load_nil_of_pending_nil hs, runAll, hs, List.length_nil, run, runChunks]
  | cons chunk rest ih =>
    obtain ⟨t, hrun, hnil, -⟩ := runAll_results (s.load chunk)
    rw [runChunks, hrun, List.flatten_cons, ← State.load_append, runAll_load hrun]
    exact ih hnil

end Sys2Proof.Machine
end

section
/-!
PROOFS. Laws of every step and every run, and the state at reset (spec/10_state.md, spec/20_memory.md, spec/60_exceptions.md,
spec/70_reset_and_hazards.md).
-/

namespace Sys2Proof.Machine
open Sys2Proof.Spec

/-- Settles O53: the one result that a step may add is a Codeword or a decoded sample. -/
theorem samplesStayInImage : Obligations.SamplesStayInImage := by
  intro s t hs hstep
  obtain ⟨-, rfl⟩ | ⟨x, rest, -, rfl⟩ | ⟨c, rest, -, rfl⟩ := step_cases hstep
  · exact hs
  · exact hs.append rfl (by simp)
  · exact hs.append rfl (by simp)

/-- Settles O55: the result that a step adds is the one owed to the operand it takes. -/
theorem stepKeepsPromisedResults : Obligations.StepKeepsPromisedResults := by
  intro s t hstep
  obtain ⟨-, rfl⟩ | ⟨pw, rest, hp, hpending, hconfig, hresults⟩ := step_idle_or_answers hstep
  · exact ⟨rfl, rfl⟩
  · exact ⟨hconfig, by rw [hconfig, hresults, hpending, hp, List.map_cons, List.append_assoc, List.singleton_append]⟩

/-- Settles O51: by the two cases of a step. -/
theorem oneResultPerOperand : Obligations.OneResultPerOperand := by
  intro s t hstep
  obtain ⟨hp, rfl⟩ | ⟨pw, rest, hp, hpending, hconfig, hresults⟩ := step_idle_or_answers hstep
  · exact ⟨rfl, by rw [hp, List.tail_nil], ⟨[], List.append_nil _⟩, rfl, fun hne => absurd hp hne⟩
  · have hlength : t.results.length = s.results.length + 1 := by rw [hresults, List.length_append, List.length_singleton]
    refine ⟨?_, by rw [hpending, hp, List.tail_cons], ⟨_, hresults.symm⟩, hconfig, fun _ => hlength⟩
    rw [hlength, hpending, hp, List.length_cons]
    omega

/-- Settles O50: every step answers a next state, so by induction does every run. -/
theorem noRunEverStops : Obligations.NoRunEverStops := by
  intro s k
  induction k generalizing s with
  | zero => exact ⟨s, rfl⟩
  | succ k ih =>
    obtain ⟨t, hstep⟩ := exists_step s
    rw [run_succ_of_step hstep]
    exact ih t

/-- Settles O49: the run of chunks is the run of their concatenation, which completes with every operand's result. -/
theorem chunkingHasNoEffect : Obligations.ChunkingHasNoEffect := by
  intro s chunks hs
  obtain ⟨t, hrun, -, -, hresults⟩ := runAll_results (s.load chunks.flatten)
  refine ⟨t, (runChunks_eq_runAll chunks hs).trans hrun, hrun, ?_⟩
  rw [hresults, State.load_pending, hs, List.nil_append, State.load_results, State.load_config]

/-- Settles O1: the five fields as reset gives them. -/
theorem resetHoldsNothing : Obligations.ResetHoldsNothing := ⟨rfl, rfl, rfl, rfl, rfl⟩

/-- Settles O54: nothing has been collected. -/
theorem resetSamplesInImage : Obligations.ResetSamplesInImage := fun _ hy => absurd hy List.not_mem_nil

/-- Settles O9: the whole next state is known, and its result depends on the operand and the parameter alone. -/
theorem encodeHasNoSideEffect : Obligations.EncodeHasNoSideEffect := by
  intro s x
  refine ⟨_, _, exec_encode x s, rfl, rfl, rfl, rfl, State.linOut_of_fields rfl, rfl, fun s' hconfig => ?_⟩
  exact ⟨_, exec_encode x s', by rw [hconfig]; rfl⟩

/-- Settles O10: the whole next state is known, and its result depends on the operand alone. -/
theorem decodeHasNoSideEffect : Obligations.DecodeHasNoSideEffect := fun s c =>
  ⟨_, _, exec_decode c s, rfl, rfl, rfl, rfl, State.cwOut_of_fields rfl rfl, rfl, fun s' => ⟨_, exec_decode c s', rfl⟩⟩

/-- Settles O52: each operation leaves the other's port and the parameter, so both orders have the same two results. -/
theorem unitsShareNothing : Obligations.UnitsShareNothing := by
  intro s x c
  exact ⟨codeword s.config.smallLimit x, Dec.linOut c, _, _, _, _, exec_encode x s, exec_decode c _, exec_decode c s,
    exec_encode x _, List.append_assoc _ _ _, List.append_assoc _ _ _, rfl⟩

end Sys2Proof.Machine
end

section
/-!
SUPPORT. Segment and Mantissa as cells of Magnitudes (spec/40_encoder.md rules R64 to R66, R69, R73).
-/

namespace Sys2Proof.Machine

theorem Enc.seg_of_lt {lim : SmallLimit} {mag : Magnitude} (h : mag.toNat < lim.value) : Enc.seg lim mag = 0#3 :=
  BitVec.eq_of_toNat_eq ((Enc.seg_toNat lim mag).trans (if_pos h))

end Sys2Proof.Machine

namespace Sys2Proof.Spec
open Sys2Proof.Machine

/-- The Magnitude `v` lies in the cell of Segment `k` and Mantissa `m` (rules R69, R87). -/
def InCell (k m v : Nat) : Prop := cellLow k m ≤ v ∧ v < cellLow k m + cellWidth k

theorem inCell_zero_iff (m v : Nat) : InCell 0 m v ↔ v / 2 = m := by
  simp only [InCell, cellLow, cellWidth, if_true]
  omega

theorem inCell_succ_iff (k m v : Nat) : InCell (k + 1) m v ↔ v / 2 ^ (k + 1) = 16 + m := by
  have hlow : cellLow (k + 1) m = (16 + m) * 2 ^ (k + 1) := by
    rw [cellLow, if_neg (Nat.succ_ne_zero k)]
    ring
  rw [InCell, hlow, cellWidth, if_neg (Nat.succ_ne_zero k), Nat.div_eq_iff (by positivity)]
  have hpos : 0 < 2 ^ (k + 1) := by positivity
  omega

/-- The leading one of a Magnitude of Segment `k + 1` stands at bit `k + 5`, whichever threshold the design has. -/
theorem segmentOf_eq_succ_iff (lim : SmallLimit) (k v : Nat) :
    segmentOf lim.value v = k + 1 ↔ 16 ≤ v / 2 ^ (k + 1) ∧ v / 2 ^ (k + 1) < 32 := by
  have hbracket : (16 ≤ v / 2 ^ (k + 1) ∧ v / 2 ^ (k + 1) < 32) ↔ 2 ^ (k + 5) ≤ v ∧ v < 2 ^ (k + 6) := by
    rw [Nat.le_div_iff_mul_le (by positivity), Nat.div_lt_iff_lt_mul (by positivity), show 16 = 2 ^ 4 by rfl,
      show 32 = 2 ^ 5 by rfl, ← pow_add, ← pow_add, show 4 + (k + 1) = k + 5 by omega, show 5 + (k + 1) = k + 6 by omega]
  rw [hbracket]
  by_cases hv : v < 32
  · have hzero := (segmentOf_eq_zero_iff lim v).2 hv
    have hpow : 2 ^ 5 ≤ 2 ^ (k + 5) := Nat.pow_le_pow_right (by decide) (by omega)
    omega
  · have hlim := lim.value_le_thirtyTwo
    rw [segmentOf, if_neg (by omega), ← Nat.log2_eq_iff (by omega)]
    omega

theorem thirtyTwo_le_of_segmentOf_eq_succ {lim : SmallLimit} {k v : Nat} (h : segmentOf lim.value v = k + 1) : 32 ≤ v := by
  by_contra hv
  rw [(segmentOf_eq_zero_iff lim v).2 (Nat.not_le.1 hv)] at h
  exact absurd h (Nat.succ_ne_zero k).symm

theorem mantissaOf_of_ge_thirtyTwo (lim : SmallLimit) {v : Nat} (hv : 32 ≤ v) :
    mantissaOf lim.value v = v / 2 ^ segmentOf lim.value v % 16 := by
  have hlim := lim.value_le_thirtyTwo
  rw [mantissaOf, if_neg (by omega)]

theorem mantissaOf_lt_sixteen (lim : SmallLimit) (v : Nat) : mantissaOf lim.value v < 16 := by
  have hlim := lim.value_le_thirtyTwo
  rw [mantissaOf]
  split <;> omega

/-- Above Segment 0 the fields of a Magnitude name its cell, for both thresholds. -/
theorem fields_eq_succ_iff (lim : SmallLimit) (k v : Nat) {m : Nat} (hm : m < 16) :
    (segmentOf lim.value v = k + 1 ∧ mantissaOf lim.value v = m) ↔ InCell (k + 1) m v := by
  have hmant (hseg : segmentOf lim.value v = k + 1) : mantissaOf lim.value v = v / 2 ^ (k + 1) % 16 := by
    rw [mantissaOf_of_ge_thirtyTwo lim (thirtyTwo_le_of_segmentOf_eq_succ hseg), hseg]
  rw [inCell_succ_iff]
  constructor
  · rintro ⟨hseg, rfl⟩
    have hwindow := (segmentOf_eq_succ_iff lim k v).1 hseg
    rw [hmant hseg]
    omega
  · intro hdiv
    have hseg := (segmentOf_eq_succ_iff lim k v).2 (by omega)
    refine ⟨hseg, ?_⟩
    rw [hmant hseg]
    omega

/-- Rule R69: under threshold 32 they do so in every Segment. -/
theorem fields_eq_iff_inCell (k v : Nat) {m : Nat} (hm : m < 16) :
    (segmentOf 32 v = k ∧ mantissaOf 32 v = m) ↔ InCell k m v := by
  cases k with
  | zero =>
    rw [show 32 = SmallLimit.lim32.value by rfl, segmentOf_eq_zero_iff, inCell_zero_iff]
    constructor
    · rintro ⟨hv, rfl⟩
      rw [mantissaOf_of_lt_thirtyTwo hv, SmallLimit.value, if_pos hv]
    · intro hdiv
      have hv : v < 32 := by omega
      exact ⟨hv, by rw [mantissaOf_of_lt_thirtyTwo hv, SmallLimit.value, if_pos hv, hdiv]⟩
  | succ k => exact fields_eq_succ_iff .lim32 k v hm

theorem inCell_fields (v : Nat) : InCell (segmentOf 32 v) (mantissaOf 32 v) v :=
  (fields_eq_iff_inCell _ v (mantissaOf_lt_sixteen .lim32 v)).1 ⟨rfl, rfl⟩

theorem inCell_top {v : Nat} (hlow : 3968 ≤ v) (hhigh : v ≤ 4095) : InCell 7 15 v := by
  have h : cellLow 7 15 = 3968 ∧ cellWidth 7 = 128 := by decide
  rw [InCell, h.1, h.2]
  omega

/-- The threshold decides about the Mantissa, never about the Segment (rule R73). -/
theorem segmentOf_threshold_irrelevant (lim lim' : SmallLimit) (v : Nat) :
    segmentOf lim.value v = segmentOf lim'.value v := by
  by_cases hv : v < 32
  · rw [(segmentOf_eq_zero_iff lim v).2 hv, (segmentOf_eq_zero_iff lim' v).2 hv]
  · have hlim := lim.value_le_thirtyTwo
    have hlim' := lim'.value_le_thirtyTwo
    rw [segmentOf, segmentOf, if_neg (by omega), if_neg (by omega)]

/-- Rule R73: the two thresholds map the Magnitudes 16 to 30, and no others, to different Mantissas. -/
theorem mantissaOf_thresholds_eq_iff (v : Nat) : mantissaOf 32 v = mantissaOf 16 v ↔ ¬(16 ≤ v ∧ v ≤ 30) := by
  rw [show 32 = SmallLimit.lim32.value by rfl, show 16 = SmallLimit.lim16.value by rfl]
  by_cases hv : v < 32
  · rw [mantissaOf_of_lt_thirtyTwo hv, mantissaOf_of_lt_thirtyTwo hv, SmallLimit.value, SmallLimit.value, if_pos hv]
    split <;> omega
  · rw [mantissaOf_of_ge_thirtyTwo .lim32 (by omega), mantissaOf_of_ge_thirtyTwo .lim16 (by omega),
      segmentOf_threshold_irrelevant .lim32 .lim16]
    simp only [SmallLimit.value, true_iff]
    omega

/-! ## The Codeword of a sample -/

theorem magnitude_le (x : LinearSample) : magnitude x ≤ 4095 := Nat.min_le_right _ _

theorem natAbs_le (x : LinearSample) : x.toInt.natAbs ≤ 32768 := by
  have hlow := BitVec.le_toInt x
  have hhigh := BitVec.toInt_lt (x := x)
  omega

theorem codeword_eq_iff_fields (lim : SmallLimit) (x : LinearSample) (c : Codeword) :
    codeword lim x = c ↔ signOf x = signField c ∧ segmentOf lim.value (magnitude x) = segField c ∧
      mantissaOf lim.value (magnitude x) = mantField c := by
  constructor
  · rintro rfl
    exact ⟨(signField_codeword lim x).symm, (segField_codeword lim x).symm, (mantField_codeword lim x).symm⟩
  · rintro ⟨hsign, hseg, hmant⟩
    exact eq_of_fields_eq ((signField_codeword lim x).trans hsign) ((segField_codeword lim x).trans hseg)
      ((mantField_codeword lim x).trans hmant)

theorem codeword_lim32_eq_iff (x : LinearSample) (c : Codeword) :
    codeword .lim32 x = c ↔ signOf x = signField c ∧ InCell (segField c) (mantField c) (magnitude x) := by
  rw [codeword_eq_iff_fields, SmallLimit.value, fields_eq_iff_inCell _ _ (mantField_lt_sixteen c)]

/-- Rule R63: for both thresholds the top cell takes every magnitude from 3968 up. -/
theorem fields_of_top (lim : SmallLimit) {x : LinearSample} (h : 3968 ≤ x.toInt.natAbs) :
    segmentOf lim.value (magnitude x) = 7 ∧ mantissaOf lim.value (magnitude x) = 15 :=
  (fields_eq_succ_iff lim 6 (magnitude x) (by decide)).2 (inCell_top (Nat.le_min.2 ⟨h, by decide⟩) (magnitude_le x))

theorem codeword_of_ge (lim : SmallLimit) {x : LinearSample} (h : 3968 ≤ x.toInt) : codeword lim x = 0xAA#8 := by
  have hsign : signOf x = 1 := if_pos (by omega)
  exact (codeword_eq_iff_fields lim x _).2 ⟨hsign, fields_of_top lim (by omega)⟩

theorem codeword_of_le (lim : SmallLimit) {x : LinearSample} (h : x.toInt ≤ -3968) : codeword lim x = 0x2A#8 := by
  have hsign : signOf x = 0 := if_neg (by omega)
  exact (codeword_eq_iff_fields lim x _).2 ⟨hsign, fields_of_top lim (by omega)⟩

theorem codeword_thresholds_eq_iff (x : LinearSample) :
    codeword .lim32 x = codeword .lim16 x ↔ ¬(16 ≤ x.toInt.natAbs ∧ x.toInt.natAbs ≤ 30) := by
  rw [codeword_eq_iff_fields, signField_codeword, segField_codeword, mantField_codeword,
    segmentOf_threshold_irrelevant .lim32 .lim16]
  simp only [SmallLimit.value, true_and, mantissaOf_thresholds_eq_iff, magnitude]
  omega

end Sys2Proof.Spec
end

section
/-!
SUPPORT. How many numbers of a range lie in an interval, and the interval of 16-bit patterns that share a Codeword
(spec/40_encoder.md rule R72).
-/

namespace Sys2Proof.Spec
open Sys2Proof.Machine

theorem countP_range_interval {lo hi n : Nat} (h : hi ≤ n) :
    (List.range n).countP (fun i => decide (lo ≤ i ∧ i < hi)) = hi - lo := by
  have hfilter : (Finset.range n).filter (fun i => lo ≤ i ∧ i < hi) = Finset.Ico lo hi := by
    ext i
    simp only [Finset.mem_filter, Finset.mem_range, Finset.mem_Ico]
    omega
  rw [← Nat.card_Ico, ← hfilter, ← Nat.count_eq_card_filter_range]
  rfl

/-- The first magnitude above those that are clamped into the cell of `k` and `m`; the top cell takes all up to 32768. -/
def cellEnd (k m : Nat) : Nat := if k = 7 ∧ m = 15 then 32769 else cellLow k m + cellWidth k

theorem cell_le_of_not_top {k m : Nat} (hk : k < 8) (hm : m < 16) (htop : ¬(k = 7 ∧ m = 15)) :
    cellLow k m + cellWidth k ≤ 3968 := by
  have hall : ∀ k < 8, ∀ m < 16, ¬(k = 7 ∧ m = 15) → cellLow k m + cellWidth k ≤ 3968 := by decide
  exact hall k hk m hm htop

theorem inCell_min_iff {k m v : Nat} (hk : k < 8) (hm : m < 16) (hv : v ≤ 32768) :
    InCell k m (min v 4095) ↔ cellLow k m ≤ v ∧ v < cellEnd k m := by
  rw [InCell, cellEnd]
  split
  · next htop =>
    obtain ⟨rfl, rfl⟩ := htop
    have h : cellLow 7 15 = 3968 ∧ cellWidth 7 = 128 := by decide
    rw [h.1, h.2]
    omega
  · next htop =>
    have hle := cell_le_of_not_top hk hm htop
    omega

theorem cellEnd_le {k m : Nat} (hk : k < 8) (hm : m < 16) : cellEnd k m ≤ 32769 := by
  rw [cellEnd]
  split
  · exact Nat.le_refl _
  · next htop => exact (cell_le_of_not_top hk hm htop).trans (by decide)

/-- The lowest pattern with the Codeword `c`: the bottom of its cell, or for a negative sample, whose pattern is 65536 minus
its magnitude, the top. -/
def preimageLow (c : Codeword) : Nat :=
  if signField c = 1 then cellLow (segField c) (mantField c) else 65537 - cellEnd (segField c) (mantField c)

/-- The first pattern above those with the Codeword `c`; no negative sample has magnitude 0. -/
def preimageEnd (c : Codeword) : Nat :=
  if signField c = 1 then min (cellEnd (segField c) (mantField c)) 32768
  else 65537 - max (cellLow (segField c) (mantField c)) 1

theorem codeword_ofNat_eq_iff {n : Nat} (hn : n < 65536) (c : Codeword) :
    codeword .lim32 (BitVec.ofNat 16 n) = c ↔ preimageLow c ≤ n ∧ n < preimageEnd c := by
  have hsign := signField_lt_two c
  have hend := cellEnd_le (segField_lt_eight c) (mantField_lt_sixteen c)
  have hcell {v : Nat} (hv : v ≤ 32768) :=
    inCell_min_iff (v := v) (segField_lt_eight c) (mantField_lt_sixteen c) hv
  rw [codeword_lim32_eq_iff, magnitude, hcell (natAbs_le _), signOf, preimageLow, preimageEnd]
  by_cases hlow : n < 32768
  · have hint : (BitVec.ofNat 16 n).toInt = n := by
      rw [BitVec.toInt_eq_toNat_cond, BitVec.toNat_ofNat]
      omega
    rw [hint]
    split_ifs <;> omega
  · have hint : (BitVec.ofNat 16 n).toInt = n - 65536 := by
      rw [BitVec.toInt_eq_toNat_cond, BitVec.toNat_ofNat]
      omega
    rw [hint]
    split_ifs <;> omega

theorem preimageEnd_le (c : Codeword) : preimageEnd c ≤ 65536 := by
  rw [preimageEnd]
  split <;> omega

/-- The only cell that reaches down to magnitude 0 is the first one, and `0x55` is its negative Codeword. -/
theorem cellLow_pos_of_ne {c : Codeword} (hsign : signField c ≠ 1) (hc : c ≠ 0x55#8) :
    0 < cellLow (segField c) (mantField c) := by
  have hlt := signField_lt_two c
  rw [cellLow]
  split
  · next hseg =>
    by_contra hzero
    exact hc (eq_of_fields_eq (show signField c = 0 by omega) hseg (show mantField c = 0 by omega))
  · positivity

theorem preimageEnd_sub_preimageLow (c : Codeword) : preimageEnd c - preimageLow c = preimageCount c := by
  rw [preimageEnd, preimageLow, preimageCount, cellEnd]
  by_cases htop : segField c = 7 ∧ mantField c = 15
  · have hlow : cellLow 7 15 = 3968 := by decide
    rw [if_pos htop, if_pos htop, if_neg (show ¬segField c ≤ 1 by omega), htop.1, htop.2, hlow]
    split <;> decide
  · have hle := cell_le_of_not_top (segField_lt_eight c) (mantField_lt_sixteen c) htop
    have hwidth : cellWidth (segField c) = if segField c ≤ 1 then 2 else 2 ^ segField c := by
      rw [cellWidth]
      split_ifs with hzero hone hone
      · rfl
      · omega
      · rw [show segField c = 1 by omega, pow_one]
      · rfl
    rw [if_neg htop, if_neg htop]
    by_cases hc : c = 0x55#8
    · subst hc
      decide
    · rw [if_neg hc, ← hwidth]
      split
      · omega
      · next hsign =>
        have hpos := cellLow_pos_of_ne hsign hc
        omega

end Sys2Proof.Spec
end

section
/-!
PROOFS. The operation ENCODE and the encoder's stages, continued (spec/40_encoder.md rules R62 to R64, R69, R70, R72, R73,
spec/10_state.md rule R16).
-/

namespace Sys2Proof.Machine
open Sys2Proof.Spec

/-- Settles O12: each unit in arithmetic. -/
theorem outputPortsFollowInputPorts : Obligations.OutputPortsFollowInputPorts := fun s =>
  ⟨Enc.cwOut_eq_codeword s.config.smallLimit s.linIn, Dec.linOut_toInt s.cwIn⟩

/-- Settles O14: negating a negative sample gives its absolute value, read unsigned. -/
theorem signHandlerAbsoluteValue : Obligations.SignHandlerAbsoluteValue := by
  refine ⟨fun x => ?_, by decide⟩
  have hle := natAbs_le x
  have hlt := BitVec.toInt_lt (x := x)
  rw [Enc.magRaw_toNat]
  exact ⟨rfl, hle, fun hx => by omega⟩

/-- Settles O15: the clamp is a minimum, and the top cell reaches up to the clamp's 4095. -/
theorem magnitudeClampSaturates : Obligations.MagnitudeClampSaturates := by
  refine ⟨fun r => ⟨Enc.mag_toNat r, ?_⟩, fun x lim hx => ?_, by decide⟩
  · have hr := r.isLt
    rw [ne_eq, ← BitVec.toNat_inj, BitVec.extractLsb'_toNat, Nat.shiftRight_eq_div_pow, BitVec.toNat_ofNat]
    omega
  · obtain ⟨hseg, hmant⟩ := fields_of_top lim hx
    rw [← Enc.magOf_toNat] at hseg hmant
    rw [← Enc.seg_toNat] at hseg
    rw [← Enc.mant_toNat] at hmant
    exact ⟨BitVec.eq_of_toNat_eq hseg, BitVec.eq_of_toNat_eq hmant⟩

/-- Settles O16: the threshold itself, and for 32 the seven bits above it. -/
theorem smallMagnitudeCase : Obligations.SmallMagnitudeCase := by
  refine ⟨fun lim mag => ⟨Enc.small_eq_true_iff lim mag, fun hlt => ?_⟩, fun mag => ?_, by decide⟩
  · exact ⟨Enc.seg_of_lt hlt, Enc.mant_eq_extract_of_lt hlt⟩
  · have hmag := mag.isLt
    rw [Enc.small_eq_true_iff, SmallLimit.value, ← BitVec.toNat_inj, BitVec.extractLsb'_toNat,
      Nat.shiftRight_eq_div_pow, BitVec.toNat_ofNat]
    omega

/-- Settles O22: a leading one at bit `k + 4` puts `mag / 2^k` between 16 and 31; the fields name the cell. -/
theorem priorityEncoderForm : Obligations.PriorityEncoderForm := by
  refine ⟨fun mag k hk _ hlead => ?_, fun mag hzero => ?_, fun mag seg mant => ?_⟩
  · obtain ⟨k, rfl⟩ := Nat.exists_eq_add_of_le' hk
    have hdiv : mag.toNat / 2 ^ (k + 1) / 16 = 1 := by
      have hshift := congrArg BitVec.toNat hlead
      rwa [BitVec.toNat_ushiftRight, Nat.shiftRight_eq_div_pow, pow_add, ← Nat.div_div_eq_div_mul] at hshift
    have hseg : (Enc.seg .lim32 mag).toNat = k + 1 := by
      rw [Enc.seg_toNat, segmentOf_eq_succ_iff]
      omega
    have hge : SmallLimit.lim32.value ≤ mag.toNat :=
      thirtyTwo_le_of_segmentOf_eq_succ ((Enc.seg_toNat .lim32 mag).symm.trans hseg)
    refine ⟨hseg, hseg ▸ Enc.mant_eq_extract_of_ge hge, ?_⟩
    rw [Enc.mant_of_ge hge, hseg]
    omega
  · have hlt : mag.toNat < SmallLimit.lim32.value := by
      have hshift := congrArg BitVec.toNat hzero
      rw [BitVec.toNat_ushiftRight, Nat.shiftRight_eq_div_pow, BitVec.toNat_ofNat] at hshift
      rw [SmallLimit.value]
      omega
    exact ⟨Enc.seg_of_lt hlt, Enc.mant_eq_extract_of_lt hlt⟩
  · rw [← BitVec.toNat_inj, ← BitVec.toNat_inj, Enc.seg_toNat, Enc.mant_toNat]
    exact fields_eq_iff_inCell _ _ mant.isLt

/-- Settles O23: the ten rows by evaluation, their Codeword on any state by the law of ENCODE. -/
theorem encodeCornerCases : Obligations.EncodeCornerCases := by
  have hrows : ∀ r ∈ encRows,
      Enc.sign r.linIn = r.sign ∧ Enc.magRaw r.linIn = r.magRaw ∧ Enc.mag r.magRaw = r.mag ∧
      Enc.seg .lim32 r.mag = r.seg ∧ Enc.mant .lim32 r.mag = r.mant ∧ Enc.assemble r.sign r.seg r.mant = r.cwPre ∧
      codeword .lim32 r.linIn = r.cwOut := by
    decide
  intro s hlim r hr
  obtain ⟨hsign, hmagRaw, hmag, hseg, hmant, hcwPre, hcwOut⟩ := hrows r hr
  exact ⟨hsign, hmagRaw, hmag, hseg, hmant, hcwPre, by rw [exec_encode, hlim, hcwOut]⟩

/-- Settles O24: the patterns with one Codeword are an interval, whose length is the cell's width but for the magnitude 0
and the clamp. -/
theorem samplesPerCodeword : Obligations.SamplesPerCodeword := by
  intro s hlim c
  have hinterval : ∀ n ∈ List.range 65536, ((s.driveLinIn (BitVec.ofNat 16 n)).cwOut == c) = true ↔
      decide (preimageLow c ≤ n ∧ n < preimageEnd c) = true := by
    intro n hn
    rw [beq_iff_eq, decide_eq_true_eq, ← codeword_ofNat_eq_iff (List.mem_range.1 hn) c, ← hlim]
    exact Eq.congr_left (Enc.cwOut_eq_codeword _ _)
  rw [List.countP_congr hinterval, countP_range_interval (preimageEnd_le c), preimageEnd_sub_preimageLow]

/-- Settles O25: the two Codewords differ in the Mantissa alone. -/
theorem literalThresholdDiffers : Obligations.LiteralThresholdDiffers := by
  refine ⟨fun s s' x hlim hlim' => ?_, fun mag hmag => ?_, fun mag hlow hhigh => ?_⟩
  · refine ⟨_, _, exec_encode x s, exec_encode x s', ?_⟩
    rw [hlim, hlim', codeword_thresholds_eq_iff]
  · have hlt : mag.toNat < SmallLimit.lim16.value := Nat.lt_succ_of_le hmag
    exact ⟨Enc.seg_of_lt hlt, Enc.mant_of_lt hlt⟩
  · have hseg : Enc.seg .lim16 mag = 0#3 :=
      BitVec.eq_of_toNat_eq ((Enc.seg_toNat _ mag).trans ((segmentOf_eq_zero_iff .lim16 _).2 (Nat.lt_succ_of_le hhigh)))
    have hmsb : Enc.msb mag = 4#4 := by
      refine BitVec.eq_of_toNat_eq ?_
      rw [Enc.msb_toNat mag (by omega)]
      exact (Nat.log2_eq_iff (by omega)).2 ⟨hlow, Nat.lt_succ_of_le hhigh⟩
    refine ⟨hmsb ▸ Enc.p_of_ge hlow, hseg, ?_⟩
    rw [Enc.mant_of_ge (lim := .lim16) hlow, hseg]
    exact congrArg (· % 16) (Nat.div_one _)

end Sys2Proof.Machine
end

section
/-!
SUPPORT. Where the bits of the reconstructed magnitude come from, and the decoded samples one by one (spec/41_decoder.md
rules R81 to R88).
-/

namespace Sys2Proof.Machine
open Sys2Proof.Spec

/-! A field is its bits side by side. -/

theorem sign_eq_bit : ∀ v : Sign, v = BitVec.ofBool (v.getLsbD 0) := by decide

theorem segment_eq_bits : ∀ v : Segment,
    v = BitVec.ofBool (v.getLsbD 2) ++ BitVec.ofBool (v.getLsbD 1) ++ BitVec.ofBool (v.getLsbD 0) := by decide

theorem mantissa_eq_bits : ∀ v : Mantissa,
    v = BitVec.ofBool (v.getLsbD 3) ++ BitVec.ofBool (v.getLsbD 2) ++ BitVec.ofBool (v.getLsbD 1) ++
      BitVec.ofBool (v.getLsbD 0) := by decide

/-- Every bit of the operand but the masked ones stands in `t` as it is (rule R81). -/
theorem Dec.t_getLsbD (c : Codeword) (i : Nat) : (Dec.t c).getLsbD i = (c.getLsbD i ^^ Config.mask.getLsbD i) :=
  BitVec.getLsbD_xor

theorem Dec.base_getLsbD_mant (lead : BitVec 1) (dmant : Mantissa) {j : Nat} (hj : j < 4) :
    (Dec.base lead dmant).getLsbD (1 + j) = dmant.getLsbD j := by
  rw [Dec.base, BitVec.getLsbD_append, if_neg (by omega), Nat.add_sub_cancel_left, BitVec.getLsbD_append, if_pos hj]

theorem Dec.base_getLsbD_five (lead : BitVec 1) (dmant : Mantissa) :
    (Dec.base lead dmant).getLsbD 5 = lead.getLsbD 0 := by
  rw [Dec.base, BitVec.getLsbD_append, if_neg (by decide), BitVec.getLsbD_append, if_neg (by decide)]

theorem Dec.rmag_getLsbD_low (b : BitVec 6) {sh : BitVec 3} {i : Nat} (hi : i < sh.toNat) :
    (Dec.rmag b sh).getLsbD i = false := by
  simp [Dec.rmag, BitVec.getLsbD_shiftLeft, hi]

/-- Rule R85: the base pattern stands `sh` places further left. -/
theorem Dec.rmag_getLsbD_add (b : BitVec 6) {sh : BitVec 3} (hsh : sh.toNat ≤ 6) {i : Nat} (hi : i < 6) :
    (Dec.rmag b sh).getLsbD (sh.toNat + i) = b.getLsbD i := by
  have h12 : sh.toNat + i < 12 := by omega
  have hi12 : i < 12 := by omega
  simp only [Dec.rmag, BitVec.getLsbD_shiftLeft, BitVec.getLsbD_setWidth, h12, hi12, Nat.add_sub_cancel_left,
    show ¬sh.toNat + i < sh.toNat by omega, decide_true, decide_false, Bool.not_false, Bool.true_and]

theorem Dec.rmag_le (b : BitVec 6) {sh : BitVec 3} (hsh : sh.toNat ≤ 6) : (Dec.rmag b sh).toNat ≤ 4032 := by
  rw [Dec.rmag_toNat b sh hsh]
  calc b.toNat * 2 ^ sh.toNat ≤ 63 * 2 ^ 6 :=
        Nat.mul_le_mul (Nat.le_of_lt_succ b.isLt) (Nat.pow_le_pow_right (by decide) hsh)
    _ = 4032 := by decide

theorem Dec.natAbs_linOut_eq_rmagOf (c : Codeword) : (Dec.linOut c).toInt.natAbs = (Dec.rmagOf (Dec.t c)).toNat := by
  rw [Spec.natAbs_linOut, Dec.rmagOf_toNat]
  rfl

theorem Dec.dsign_getLsbD_zero (c : Codeword) : (Dec.dsign (Dec.t c)).getLsbD 0 = decide (signField c = 1) := by
  have hbit : ∀ d : Sign, d.getLsbD 0 = decide (d = 1#1) := by decide
  rw [hbit, decide_eq_decide, Dec.dsign_eq_one_iff]

theorem linOut_pos_iff (c : Codeword) : 0 < (Dec.linOut c).toInt ↔ signField c = 1 := by
  have hpos := reconstruct_pos (segField c) (mantField c)
  rw [Dec.linOut_toInt, sampleOf]
  split_ifs <;> omega

theorem linOut_of_sign_one {c : Codeword} (h : signField c = 1) :
    (Dec.linOut c).toInt = reconstruct (segField c) (mantField c) := by
  rw [Dec.linOut_toInt, sampleOf, if_pos h]

/-- Rule R105: threshold 32 encodes every decoded sample back. -/
theorem codeword_lim32_linOut (c : Codeword) : codeword .lim32 (Dec.linOut c) = c :=
  (codeword_linOut_eq_iff .lim32 c).2 (by simp)

/-- So no two Codewords have the same sample (rule R88). -/
theorem Dec.linOut_injective : Function.Injective Dec.linOut :=
  Function.LeftInverse.injective codeword_lim32_linOut

theorem linOut_toInt_eq_iff {n : Int} {c₀ : Codeword} (h₀ : (Dec.linOut c₀).toInt = n) (c : Codeword) :
    (Dec.linOut c).toInt = n ↔ c = c₀ := by
  rw [← h₀, BitVec.toInt_inj, Dec.linOut_injective.eq_iff]

theorem gives_decode_iff {s t : State} {c : Codeword} {y : LinearSample} :
    Gives s (.cwIn c) (.linOut y) t ↔ y = Dec.linOut c ∧ t = afterDecode s c (Dec.linOut c) := by
  constructor
  · rintro ⟨hstep, hresults⟩
    rw [(gives_decode s c).1] at hstep
    cases hstep
    rw [(gives_decode s c).2] at hresults
    have hy : y = Dec.linOut c := by simpa using hresults.symm
    exact ⟨hy, rfl⟩
  · rintro ⟨rfl, rfl⟩
    exact gives_decode s c

/-- Any three fields are those of a Codeword (rule R82). -/
theorem exists_codeword_of_fields {d k m : Nat} (hd : d < 2) (hk : k < 8) (hm : m < 16) :
    ∃ c, signField c = d ∧ segField c = k ∧ mantField c = m := by
  refine ⟨Enc.invert (Enc.assemble (BitVec.ofNat 1 d) (BitVec.ofNat 3 k) (BitVec.ofNat 4 m)), ?_⟩
  have hunmask : unmask (Enc.invert (Enc.assemble (BitVec.ofNat 1 d) (BitVec.ofNat 3 k) (BitVec.ofNat 4 m))) =
      128 * d + 16 * k + m := by
    rw [← Dec.t_toNat, Dec.t_invert, Enc.assemble_toNat, BitVec.toNat_ofNat, BitVec.toNat_ofNat, BitVec.toNat_ofNat]
    omega
  rw [signField, segField, mantField, hunmask]
  omega

end Sys2Proof.Machine
end

section
/-!
PROOFS. The operation DECODE and the decoder's stages, continued (spec/41_decoder.md rules R81, R85 to R89, R92,
spec/30_encoding.md rule R49).
-/

namespace Sys2Proof.Machine
open Sys2Proof.Spec

/-- Settles O31: the base pattern shifted within its twelve bits, and the decoded sample's magnitude is that of the unit. -/
theorem magnitudeReconstructionBits : Obligations.MagnitudeReconstructionBits := by
  refine ⟨fun b sh hsh => ⟨Dec.rmag_toNat b sh hsh, Dec.rmag_le b hsh⟩, fun lead dmant sh hsh => ?_, fun s c => ?_,
    by decide⟩
  · refine ⟨fun i hi => Dec.rmag_getLsbD_low _ hi, ?_, fun j hj => ?_, ?_⟩
    · exact (Dec.rmag_getLsbD_add _ hsh (by decide)).trans (Dec.base_getLsbD_zero lead dmant)
    · rw [Nat.add_assoc, Dec.rmag_getLsbD_add _ hsh (by omega), Dec.base_getLsbD_mant lead dmant hj]
    · rw [Dec.rmag_getLsbD_add _ hsh (by decide), Dec.base_getLsbD_five]
  · refine ⟨_, exec_decode c s, ?_, natAbs_linOut_le c⟩
    rw [Dec.natAbs_linOut_eq_rmagOf, Dec.rmagOf, Dec.rmag_toNat _ _ (Dec.shamt_le_six _)]

/-- Settles O32: the magnitude is not 0, so bit 15, the sign of the sample, is the complement of the Sign. -/
theorem signRestoration : Obligations.SignRestoration := by
  refine ⟨Dec.restore_toInt, fun s c => ⟨_, exec_decode c s, linOut_ne_zero c, ?_⟩, by decide⟩
  have hmsb : (Dec.linOut c).getLsbD 15 = decide ((Dec.linOut c).toInt < 0) :=
    BitVec.msb_eq_toInt (x := Dec.linOut c)
  have hne := natAbs_linOut_pos c
  rw [hmsb, Dec.dsign_getLsbD_zero, ← decide_not, decide_eq_decide, ← linOut_pos_iff]
  omega

/-- Settles O33: the reconstructed magnitude is the midpoint of the cell. -/
theorem decodeIsCellMidpoint : Obligations.DecodeIsCellMidpoint := fun s c =>
  ⟨_, _, gives_decode s c, (natAbs_linOut c).trans (reconstruct_eq_midpoint _ _), linOut_pos_iff c⟩

/-- Settles O34: encoding back with threshold 32 tells the samples apart. -/
theorem decodeRange : Obligations.DecodeRange := by
  refine ⟨fun s s' t t' c c' y h h' => ?_, fun s c => ?_, fun s k m hk hm => ?_⟩
  · exact Dec.linOut_injective ((gives_decode_iff.1 h).1.symm.trans (gives_decode_iff.1 h').1)
  · exact ⟨_, _, gives_decode s c, natAbs_linOut_pos c, natAbs_linOut_le c, linOut_toInt_eq_iff (by decide) c,
      linOut_toInt_eq_iff (by decide) c, linOut_toInt_eq_iff (by decide) c, linOut_toInt_eq_iff (by decide) c⟩
  · obtain ⟨c, hsign, rfl, rfl⟩ := exists_codeword_of_fields (d := 1) (by decide) hk hm
    refine ⟨c, _, _, gives_decode s c, ?_⟩
    rw [linOut_of_sign_one hsign, reconstruct_eq_midpoint, Nat.cast_add, Int.natCast_div]
    rfl

/-- Settles O11: the parameter does not enter, and Segment 0 has no leading one and no shift. -/
theorem decodeIgnoresSmallLimit : Obligations.DecodeIgnoresSmallLimit := by
  refine ⟨fun s lim c => ⟨_, exec_decode c s, exec_decode c _⟩, fun c hseg => ?_⟩
  rw [natAbs_linOut, hseg, reconstruct, if_pos rfl]

/-- Settles O26: the mask undoes itself. -/
theorem xorInversionRecoversPreMask : Obligations.XorInversionRecoversPreMask :=
  ⟨fun _ => rfl, fun lim x => Dec.t_invert (Enc.cwPre lim x), by decide⟩

/-- Settles O28: each field bit by bit, the mask having its ones at the even bits. -/
theorem fieldsFromOperandBits : Obligations.FieldsFromOperandBits := by
  intro c
  have hodd : ∀ i ∈ [1, 3, 5, 7], Config.mask.getLsbD i = false := by decide
  have heven : ∀ i ∈ [0, 2, 4, 6], Config.mask.getLsbD i = true := by decide
  refine ⟨?_, ?_, ?_⟩
  · rw [sign_eq_bit (Dec.dsign _)]
    simp [Dec.dsign, Dec.t_getLsbD, hodd, -BitVec.getLsbD_eq_getElem]
  · rw [segment_eq_bits (Dec.dseg _)]
    simp [Dec.dseg, Dec.t_getLsbD, hodd, heven, -BitVec.getLsbD_eq_getElem]
  · rw [mantissa_eq_bits (Dec.dmant _)]
    simp [Dec.dmant, Dec.t_getLsbD, hodd, heven, -BitVec.getLsbD_eq_getElem]

/-- Settles O35: the ten rows by evaluation, their sample on any state by the law of DECODE. -/
theorem decodeCornerCases : Obligations.DecodeCornerCases := by
  have hrows : ∀ r ∈ decRows,
      Dec.t r.cwIn = r.t ∧ Dec.dsign r.t = r.dsign ∧ Dec.dseg r.t = r.dseg ∧ Dec.dmant r.t = r.dmant ∧
      Dec.lead r.dseg = r.lead ∧ Dec.shamt r.dseg = r.shamt ∧ Dec.base r.lead r.dmant = r.base ∧
      Dec.rmag r.base r.shamt = r.rmag ∧ Dec.linOut r.cwIn = r.linOut := by
    decide
  intro s r hr
  obtain ⟨ht, hdsign, hdseg, hdmant, hlead, hshamt, hbase, hrmag, hlinOut⟩ := hrows r hr
  exact ⟨ht, hdsign, hdseg, hdmant, hlead, hshamt, hbase, hrmag, by rw [exec_decode, hlinOut]⟩

end Sys2Proof.Machine
end

section
/-!
SUPPORT. The round trip of a sample in arithmetic: its result, its error, its order and its fixed points
(spec/42_codec_laws.md rules R90, R101 to R108).
-/

namespace Sys2Proof.Spec
open Sys2Proof.Machine

/-- The magnitude that a round trip makes of the Magnitude `v` under the threshold `lim`. -/
def roundTripMag (lim v : Nat) : Nat := reconstruct (segmentOf lim v) (mantissaOf lim v)

theorem signOf_eq_one_iff (x : LinearSample) : signOf x = 1 ↔ 0 ≤ x.toInt := by
  rw [signOf]
  split <;> simp [*]

/-- Rules R90, R101: the round trip keeps the sign and depends on the clamped magnitude alone. -/
theorem linOut_codeword_toInt (lim : SmallLimit) (x : LinearSample) :
    (Dec.linOut (codeword lim x)).toInt =
      if 0 ≤ x.toInt then (roundTripMag lim.value (magnitude x) : Int)
      else -(roundTripMag lim.value (magnitude x) : Int) := by
  rw [Dec.linOut_toInt, sampleOf, signField_codeword, segField_codeword, mantField_codeword]
  simp only [signOf_eq_one_iff, roundTripMag]

theorem natAbs_linOut_codeword_sub (lim : SmallLimit) (x : LinearSample) :
    ((Dec.linOut (codeword lim x)).toInt - x.toInt).natAbs =
      ((roundTripMag lim.value (magnitude x) : Int) - (x.toInt.natAbs : Int)).natAbs := by
  rw [linOut_codeword_toInt]
  split <;> omega

theorem magnitude_of_natAbs_le {x : LinearSample} (h : x.toInt.natAbs ≤ 4095) : magnitude x = x.toInt.natAbs :=
  Nat.min_eq_left h

theorem magnitude_mono {x y : LinearSample} (h : x.toInt.natAbs ≤ y.toInt.natAbs) : magnitude x ≤ magnitude y :=
  min_le_min_right 4095 h

theorem toInt_ofNat_sixteen {v : Nat} (h : v < 32768) : (BitVec.ofNat 16 v).toInt = v := by
  rw [BitVec.toInt_eq_toNat_cond, BitVec.toNat_ofNat]
  omega

/-! ## The error (rules R102, R107) -/

theorem maxErr_eq_two_pow (k : Nat) : maxErr k = 2 ^ (k - 1) := by
  cases k with
  | zero => rfl
  | succ k =>
    rw [maxErr, cellWidth, if_neg (Nat.succ_ne_zero k), pow_succ, Nat.mul_div_cancel _ (by decide), Nat.add_sub_cancel]

theorem cellWidth_eq_two_mul_maxErr (k : Nat) : cellWidth k = 2 * maxErr k := by
  cases k with
  | zero => rfl
  | succ k => rw [maxErr_eq_two_pow, cellWidth, if_neg (Nat.succ_ne_zero k), Nat.add_sub_cancel, pow_succ']

theorem maxErr_mono {j k : Nat} (h : j ≤ k) : maxErr j ≤ maxErr k := by
  rw [maxErr_eq_two_pow, maxErr_eq_two_pow]
  exact Nat.pow_le_pow_right (by decide) (Nat.sub_le_sub_right h 1)

theorem maxErr_pos (k : Nat) : 0 < maxErr k := by
  rw [maxErr_eq_two_pow]
  positivity

theorem inCell_cellLow (k m : Nat) : InCell k m (cellLow k m) := by
  have hpos := maxErr_pos k
  rw [InCell, cellWidth_eq_two_mul_maxErr]
  omega

theorem inCell_reconstruct (k m : Nat) : InCell k m (reconstruct k m) := by
  have hpos := maxErr_pos k
  rw [InCell, reconstruct_eq_midpoint, cellWidth_eq_two_mul_maxErr]
  omega

/-- No Magnitude is further than half a cell from the middle of its cell. -/
theorem reconstruct_sub_le_maxErr {k m v : Nat} (h : InCell k m v) :
    ((reconstruct k m : Int) - (v : Int)).natAbs ≤ maxErr k := by
  obtain ⟨hlow, hhigh⟩ := h
  rw [cellWidth_eq_two_mul_maxErr] at hhigh
  rw [reconstruct_eq_midpoint, cellWidth_eq_two_mul_maxErr]
  omega

theorem error_le_of_inCell {lim : SmallLimit} {x : LinearSample} (hx : x.toInt.natAbs ≤ 4095)
    (hcell : InCell (segmentOf lim.value (magnitude x)) (mantissaOf lim.value (magnitude x)) (magnitude x)) :
    ((Dec.linOut (codeword lim x)).toInt - x.toInt).natAbs ≤ maxErr (segField (codeword lim x)) := by
  rw [natAbs_linOut_codeword_sub, segField_codeword, ← magnitude_of_natAbs_le hx]
  exact reconstruct_sub_le_maxErr hcell

theorem error_lim32_le {x : LinearSample} (hx : x.toInt.natAbs ≤ 4095) :
    ((Dec.linOut (codeword .lim32 x)).toInt - x.toInt).natAbs ≤ maxErr (segField (codeword .lim32 x)) :=
  error_le_of_inCell hx (inCell_fields _)

/-- At the bottom of a cell the error is half the cell. -/
theorem error_at_cellLow {k m : Nat} (hk : k < 8) (hm : m < 16) :
    ∃ x : LinearSample, x.toInt.natAbs ≤ 4095 ∧ segField (codeword .lim32 x) = k ∧
      ((Dec.linOut (codeword .lim32 x)).toInt - x.toInt).natAbs = maxErr k := by
  have hle : cellLow k m ≤ 4032 :=
    (Nat.le_add_right _ _).trans ((reconstruct_eq_midpoint k m).symm.trans_le (reconstruct_le hk hm))
  have hint : (BitVec.ofNat 16 (cellLow k m)).toInt = cellLow k m := toInt_ofNat_sixteen (by omega)
  have habs : (BitVec.ofNat 16 (cellLow k m)).toInt.natAbs = cellLow k m := by rw [hint, Int.natAbs_natCast]
  have hmag : magnitude (BitVec.ofNat 16 (cellLow k m)) = cellLow k m := by
    rw [magnitude_of_natAbs_le (by omega), habs]
  obtain ⟨hseg, hmant⟩ := (fields_eq_iff_inCell k (cellLow k m) hm).2 (inCell_cellLow k m)
  refine ⟨BitVec.ofNat 16 (cellLow k m), by omega, ?_, ?_⟩
  · rw [segField_codeword, hmag]
    exact hseg
  · rw [natAbs_linOut_codeword_sub, hmag, habs, roundTripMag, SmallLimit.value, hseg, hmant, reconstruct_eq_midpoint,
      maxErr]
    omega

theorem error_of_clipped (lim : SmallLimit) {x : LinearSample} (hx : 4095 < x.toInt.natAbs) :
    ((Dec.linOut (codeword lim x)).toInt - x.toInt).natAbs = x.toInt.natAbs - 4032 := by
  obtain ⟨hseg, hmant⟩ := fields_of_top lim (x := x) (by omega)
  have htop : reconstruct 7 15 = 4032 := by decide
  rw [natAbs_linOut_codeword_sub, roundTripMag, hseg, hmant, htop]
  omega

/-! ## The order (rule R106) -/

theorem segmentOf_mono {a b : Nat} (h : a ≤ b) : segmentOf 32 a ≤ segmentOf 32 b := by
  rw [segmentOf, segmentOf]
  split_ifs
  · exact Nat.le_refl _
  · exact Nat.zero_le _
  · omega
  · rw [Nat.log2_eq_log_two, Nat.log2_eq_log_two]
    exact Nat.sub_le_sub_right (Nat.log_mono_right h) 4

theorem mantissaOf_mono {a b : Nat} (h : a ≤ b) (hseg : segmentOf 32 a = segmentOf 32 b) :
    mantissaOf 32 a ≤ mantissaOf 32 b := by
  have ha := inCell_fields a
  have hb := inCell_fields b
  rw [hseg] at ha
  cases hk : segmentOf 32 b with
  | zero =>
    rw [hk, inCell_zero_iff] at ha hb
    omega
  | succ k =>
    rw [hk, inCell_succ_iff] at ha hb
    have hdiv := Nat.div_le_div_right (c := 2 ^ (k + 1)) h
    omega

/-- Segment and Mantissa, read as one number, never decrease with the Magnitude. -/
theorem fields_mono {a b : Nat} (h : a ≤ b) :
    16 * segmentOf 32 a + mantissaOf 32 a ≤ 16 * segmentOf 32 b + mantissaOf 32 b := by
  have hmant := mantissaOf_lt_sixteen .lim32 a
  rw [SmallLimit.value] at hmant
  obtain hlt | heq := (segmentOf_mono h).lt_or_eq
  · omega
  · have hle := mantissaOf_mono h heq
    omega

theorem reconstruct_lt_two_pow {m : Nat} (hm : m < 16) (k : Nat) : reconstruct k m < 2 ^ (k + 5) := by
  cases k with
  | zero =>
    rw [reconstruct, if_pos rfl]
    omega
  | succ k => exact (reconstruct_succ_bracket hm k).2

theorem reconstruct_mono_mant (k : Nat) {m n : Nat} (h : m ≤ n) : reconstruct k m ≤ reconstruct k n := by
  rw [reconstruct, reconstruct]
  split
  · omega
  · exact Nat.mul_le_mul_right _ (by omega)

theorem reconstruct_lt_of_seg_lt {k l m n : Nat} (hkl : k < l) (hm : m < 16) (hn : n < 16) :
    reconstruct k m < reconstruct l n := by
  obtain ⟨l, rfl⟩ := Nat.exists_eq_add_of_le' (Nat.one_le_of_lt hkl)
  calc reconstruct k m < 2 ^ (k + 5) := reconstruct_lt_two_pow hm k
    _ ≤ 2 ^ (l + 5) := Nat.pow_le_pow_right (by decide) (by omega)
    _ ≤ reconstruct (l + 1) n := (reconstruct_succ_bracket hn l).1

theorem roundTripMag_mono {a b : Nat} (h : a ≤ b) : roundTripMag 32 a ≤ roundTripMag 32 b := by
  rw [roundTripMag, roundTripMag]
  obtain hlt | heq := (segmentOf_mono h).lt_or_eq
  · exact (reconstruct_lt_of_seg_lt hlt (mantissaOf_lt_sixteen .lim32 a) (mantissaOf_lt_sixteen .lim32 b)).le
  · rw [heq]
    exact reconstruct_mono_mant _ (mantissaOf_mono h heq)

theorem linOut_codeword_mono {a b : LinearSample} (h : a.toInt ≤ b.toInt) :
    (Dec.linOut (codeword .lim32 a)).toInt ≤ (Dec.linOut (codeword .lim32 b)).toInt := by
  rw [linOut_codeword_toInt, linOut_codeword_toInt, SmallLimit.value]
  split_ifs with ha hb hb
  · exact Int.ofNat_le.2 (roundTripMag_mono (magnitude_mono (by omega)))
  · omega
  · omega
  · exact Int.neg_le_neg (Int.ofNat_le.2 (roundTripMag_mono (magnitude_mono (by omega))))

theorem unmask_codeword (lim : SmallLimit) (x : LinearSample) : unmask (codeword lim x) = preMask lim.value x := by
  rw [← Dec.t_toNat, t_codeword, Enc.cwPre_toNat]

theorem unmask_codeword_mono {a b : LinearSample} (hsign : signOf a = signOf b) (h : a.toInt.natAbs ≤ b.toInt.natAbs) :
    unmask (codeword .lim32 a) ≤ unmask (codeword .lim32 b) := by
  have hfields := fields_mono (magnitude_mono h)
  rw [unmask_codeword, unmask_codeword, preMask, preMask, SmallLimit.value, hsign]
  omega

/-- Rule R67: a negative sample has Sign 0, bit 7 of the pre-mask codeword. -/
theorem unmask_codeword_lt_of_neg (lim : SmallLimit) {x : LinearSample} (h : x.toInt < 0) :
    unmask (codeword lim x) < 128 := by
  have hsign : signField (codeword lim x) = 0 := by
    rw [signField_codeword, signOf, if_neg (by omega)]
  rw [signField] at hsign
  omega

/-! ## The threshold 16 (rules R73, R108) -/

theorem error_lim16_le_of_lt {x : LinearSample} (hx : x.toInt.natAbs ≤ 31) :
    ((Dec.linOut (codeword .lim16 x)).toInt - x.toInt).natAbs ≤ 15 := by
  have hmag := magnitude_of_natAbs_le (x := x) (by omega)
  rw [natAbs_linOut_codeword_sub, hmag, roundTripMag, (segmentOf_eq_zero_iff .lim16 _).2 (by omega),
    mantissaOf_of_lt_thirtyTwo (by omega), reconstruct, if_pos rfl, SmallLimit.value]
  split <;> omega

/-- Rule R51: each Codeword has a sample; where threshold 16 does not encode the decoded one back, the Magnitude 16 above
its Mantissa. -/
theorem exists_codeword_eq (lim : SmallLimit) (c : Codeword) : ∃ x, codeword lim x = c := by
  by_cases hexc : lim = .lim16 ∧ segField c = 0 ∧ 8 ≤ mantField c ∧ mantField c ≤ 14
  · obtain ⟨rfl, hseg, hlow, hhigh⟩ := hexc
    have hv : (BitVec.ofNat 12 (16 + mantField c)).toNat = 16 + mantField c := Nat.mod_eq_of_lt (by omega)
    have hint := Dec.restore_toInt (Dec.dsign (Dec.t c)) (BitVec.ofNat 12 (16 + mantField c))
    rw [hv] at hint
    simp only [Dec.dsign_eq_one_iff] at hint
    have hmag : magnitude (Dec.restore (Dec.dsign (Dec.t c)) (BitVec.ofNat 12 (16 + mantField c))) = 16 + mantField c := by
      rw [magnitude, hint]
      split <;> omega
    refine ⟨Dec.restore (Dec.dsign (Dec.t c)) (BitVec.ofNat 12 (16 + mantField c)),
      (codeword_eq_iff_fields .lim16 _ c).2 ⟨?_, ?_, ?_⟩⟩
    · have hsign := signField_lt_two c
      rw [signOf, hint]
      split_ifs <;> omega
    · rw [hmag, hseg, segmentOf_eq_zero_iff]
      omega
    · rw [hmag, mantissaOf_of_lt_thirtyTwo (by omega), SmallLimit.value]
      split <;> omega
  · exact ⟨Dec.linOut c, (codeword_linOut_eq_iff lim c).2 hexc⟩

end Sys2Proof.Spec

namespace Sys2Proof.Machine
open Sys2Proof.Spec

/-! ## Transactions with a known Codeword -/

theorem exists_gives_encode {s : State} {x : LinearSample} {c : Codeword} (h : codeword s.config.smallLimit x = c) :
    ∃ t, Gives s (.linIn x) (.cwOut c) t :=
  ⟨_, h ▸ gives_encode s x⟩

theorem exists_roundTrip_of_codeword {s : State} {x : LinearSample} {c : Codeword}
    (h : codeword s.config.smallLimit x = c) : ∃ t, RoundTrip s x c (Dec.linOut c) t := by
  obtain ⟨t, ht, -⟩ := exists_roundTrip s x
  exact ⟨t, h ▸ ht⟩

/-- Under threshold 32 a round trip exists with the arithmetic Codeword of 32. -/
theorem exists_roundTrip_lim32 {s : State} (hlim : s.config.smallLimit = .lim32) (x : LinearSample) :
    ∃ t, RoundTrip s x (codeword .lim32 x) (Dec.linOut (codeword .lim32 x)) t :=
  exists_roundTrip_of_codeword (by rw [hlim])

end Sys2Proof.Machine
end

section
/-!
PROOFS. Laws of the two operations together, continued (spec/42_codec_laws.md, spec/41_decoder.md rule R90,
spec/30_encoding.md rule R51).
-/

namespace Sys2Proof.Machine
open Sys2Proof.Spec

/-- Settles O36: the result is the midpoint of the sample's own cell, and the clipped samples share the top cell. -/
theorem decodeIsLossyInverse : Obligations.DecodeIsLossyInverse := by
  intro s x hlim
  obtain ⟨t, ht⟩ := exists_roundTrip_lim32 hlim x
  have hAA : (Dec.linOut 0xAA#8).toInt = 4032 := by decide
  have h2A : (Dec.linOut 0x2A#8).toInt = -4032 := by decide
  refine ⟨_, _, t, ht, ?_, fun hx => ?_, fun hx => ?_, fun hx => ?_⟩
  · rw [linOut_pos_iff, signField_codeword, signOf_eq_one_iff]
  · have hcell := inCell_fields (magnitude x)
    rw [magnitude_of_natAbs_le hx] at hcell
    refine ⟨segField (codeword .lim32 x), mantField (codeword .lim32 x), segField_lt_eight _, mantField_lt_sixteen _, ?_⟩
    rw [natAbs_linOut]
    obtain ⟨hlow, hhigh⟩ := inCell_reconstruct (segField (codeword .lim32 x)) (mantField (codeword .lim32 x))
    rw [segField_codeword, mantField_codeword, SmallLimit.value, magnitude_of_natAbs_le hx] at hlow hhigh ⊢
    exact ⟨hcell.1, hcell.2, hlow, hhigh⟩
  · rw [codeword_of_ge .lim32 (by omega), hAA]
  · rw [codeword_of_le .lim32 (by omega), h2A]

/-- Settles O37: every Codeword is the arithmetic ENCODE of some sample. -/
theorem encodeIsOnto : Obligations.EncodeIsOnto := by
  intro s c
  obtain ⟨x, hx⟩ := exists_codeword_eq s.config.smallLimit c
  exact ⟨x, exists_gives_encode hx⟩

/-- Settles O38: the round trip depends on the sign and the clamped magnitude alone. -/
theorem signSymmetry : Obligations.SignSymmetry := by
  refine ⟨fun s m hlow hhigh => ?_, fun s => ?_, fun s => ?_⟩
  · obtain ⟨t, ht, -⟩ := exists_roundTrip s (BitVec.ofInt 16 m)
    obtain ⟨t', ht', -⟩ := exists_roundTrip s (BitVec.ofInt 16 (-m))
    have hpos : (BitVec.ofInt 16 m).toInt = m := toInt_ofInt_sixteen (by omega) hhigh
    have hneg : (BitVec.ofInt 16 (-m)).toInt = -m := toInt_ofInt_sixteen (by omega) (by omega)
    have hmag : magnitude (BitVec.ofInt 16 (-m)) = magnitude (BitVec.ofInt 16 m) := by
      rw [magnitude, magnitude, hpos, hneg, Int.natAbs_neg]
    refine ⟨_, _, _, _, t, t', ht, ht', ?_⟩
    rw [linOut_codeword_toInt, linOut_codeword_toInt, hpos, hneg, hmag, if_pos (by omega), if_neg (by omega), Int.neg_neg]
  · have hzero (lim : SmallLimit) : codeword lim 0#16 = 0xD5#8 := by
      cases lim <;> decide
    exact ⟨0xD5#8, exists_roundTrip_of_codeword (hzero _)⟩
  · obtain ⟨t, ht⟩ := exists_gives_encode (s := s) (codeword_of_le _ (x := BitVec.ofInt 16 (-32768)) (by decide))
    obtain ⟨t', ht'⟩ := exists_gives_encode (s := s) (codeword_of_le _ (x := BitVec.ofInt 16 (-32767)) (by decide))
    exact ⟨t, t', ht, ht'⟩

/-- Settles O39: half a cell bounds the error within a cell, and the bottom of the cell attains it. -/
theorem maxErrorBySegment : Obligations.MaxErrorBySegment := by
  intro s hlim
  refine ⟨fun x hx => ?_, fun k hk => ?_, fun x hx => ?_, fun j k hjk _ => maxErr_mono hjk, by decide⟩
  · obtain ⟨t, ht⟩ := exists_roundTrip_lim32 hlim x
    exact ⟨_, _, t, ht, error_lim32_le hx⟩
  · obtain ⟨x, hx, hseg, herr⟩ := error_at_cellLow hk (m := 0) (by decide)
    obtain ⟨t, ht⟩ := exists_roundTrip_lim32 hlim x
    exact ⟨x, _, _, t, hx, ht, hseg, herr⟩
  · obtain ⟨t, ht⟩ := exists_roundTrip_lim32 hlim x
    exact ⟨_, _, t, ht, (segField_codeword _ x).trans (fields_of_top .lim32 (by omega)).1, error_of_clipped .lim32 hx⟩

/-- Settles O40: from 3968 up the sign alone decides the Codeword. -/
theorem saturationLaw : Obligations.SaturationLaw := by
  have hhigh (s : State) (x : LinearSample) (hx : 3968 ≤ x.toInt) : ∃ t, Gives s (.linIn x) (.cwOut 0xAA#8) t :=
    exists_gives_encode (codeword_of_ge _ hx)
  have hlow (s : State) (x : LinearSample) (hx : x.toInt ≤ -3968) : ∃ t, Gives s (.linIn x) (.cwOut 0x2A#8) t :=
    exists_gives_encode (codeword_of_le _ hx)
  refine ⟨fun s x hx => ?_, fun s x hx => ?_, hhigh, hlow⟩
  · obtain ⟨t, ht⟩ := hhigh s x (by omega)
    obtain ⟨t', ht'⟩ := hhigh s 4095#16 (by decide)
    exact ⟨t, t', ht, ht'⟩
  · obtain ⟨t, ht⟩ := hlow s x (by omega)
    obtain ⟨t', ht'⟩ := hlow s (BitVec.ofInt 16 (-4095)) (by decide)
    exact ⟨t, t', ht, ht'⟩

/-- Settles O42: threshold 32 encodes every decoded sample back, so its round trip decodes to it again. -/
theorem decodeThenEncodeIsIdentity : Obligations.DecodeThenEncodeIsIdentity := by
  refine ⟨fun s c hlim => ?_, fun s x hlim => ⟨?_, ?_⟩⟩
  · obtain ⟨u, hu⟩ := exists_gives_encode (s := afterDecode s c (Dec.linOut c)) (x := Dec.linOut c) (c := c)
      ((congrArg (codeword · _) hlim).trans (codeword_lim32_linOut c))
    exact ⟨_, _, u, gives_decode s c, hu⟩
  · rintro ⟨c, t, u, -, hdec⟩
    obtain ⟨rfl, -⟩ := gives_decode_iff.1 hdec
    exact ⟨c, _, gives_decode s c⟩
  · rintro ⟨c, t, hdec⟩
    obtain ⟨rfl, -⟩ := gives_decode_iff.1 hdec
    exact ⟨c, exists_roundTrip_of_codeword (by rw [hlim, codeword_lim32_linOut])⟩

/-- Settles O43: within a sign the order is that of the magnitudes, and the signs keep the negative samples below. -/
theorem orderPreservation : Obligations.OrderPreservation := by
  intro s a b hlim hab
  obtain ⟨ta, hta⟩ := exists_roundTrip_lim32 hlim a
  obtain ⟨tb, htb⟩ := exists_roundTrip_lim32 hlim b
  refine ⟨_, _, _, _, ta, tb, hta, htb, linOut_codeword_mono hab, fun ha => ?_, fun hb => ?_⟩
  · have hsign : signOf a = signOf b := by rw [signOf, signOf, if_pos ha, if_pos (ha.trans hab)]
    exact unmask_codeword_mono hsign (by omega)
  · have hsign : signOf b = signOf a := by rw [signOf, signOf, if_neg (by omega), if_neg (by omega)]
    exact ⟨unmask_codeword_mono hsign (by omega), unmask_codeword_lt_of_neg _ (by omega), unmask_codeword_lt_of_neg _ hb⟩

/-- Settles O44: the Segment, and with it half the cell width, never decreases with the magnitude. -/
theorem quantizationErrorBound : Obligations.QuantizationErrorBound := by
  intro s x x' hlim hle hx'
  obtain ⟨t, ht⟩ := exists_roundTrip_lim32 hlim x
  obtain ⟨t', ht'⟩ := exists_roundTrip_lim32 hlim x'
  refine ⟨_, _, t, _, _, t', ht, ht', error_lim32_le (hle.trans hx'), error_lim32_le hx', maxErr_mono ?_,
    maxErr_mono (Nat.le_of_lt_succ (segField_lt_eight _))⟩
  rw [segField_codeword, segField_codeword]
  exact segmentOf_mono (magnitude_mono hle)

/-- Settles O45: the Codewords that threshold 16 does not keep, the error of the unhalved Mantissas, and 16 after 15. -/
theorem literalThresholdBreaksLaws : Obligations.LiteralThresholdBreaksLaws := by
  intro s hlim
  have hroundTrip (x : LinearSample) : ∃ t, RoundTrip s x (codeword .lim16 x) (Dec.linOut (codeword .lim16 x)) t :=
    exists_roundTrip_of_codeword (by rw [hlim])
  refine ⟨fun c => ?_, ?_, fun x hx => ?_, fun x hlow hhigh => ?_, ?_⟩
  · refine ⟨_, _, _, _, gives_decode s c, gives_encode _ _, ?_⟩
    rw [show (afterDecode s c (Dec.linOut c)).config.smallLimit = .lim16 from hlim, codeword_linOut_eq_iff]
    simp only [true_and]
  · exact exists_roundTrip_of_codeword (by rw [hlim]; decide)
  · obtain ⟨t, ht⟩ := hroundTrip x
    have hmag := magnitude_of_natAbs_le (x := x) (by omega)
    refine ⟨_, _, t, ht, ?_, error_lim16_le_of_lt hx⟩
    rw [segField_codeword, segmentOf_eq_zero_iff]
    omega
  · obtain ⟨t, ht⟩ := hroundTrip x
    have hmag := magnitude_of_natAbs_le (x := x) (by omega)
    have hseg : segmentOf SmallLimit.lim16.value (magnitude x) = 0 + 1 := (segmentOf_eq_succ_iff _ _ _).2 (by omega)
    have hcell := (fields_eq_succ_iff .lim16 0 _ (mantissaOf_lt_sixteen .lim16 _)).1 ⟨hseg, rfl⟩
    have herr := error_le_of_inCell (lim := .lim16) (x := x) (by omega) (by rwa [hseg])
    have hfield : segField (codeword .lim16 x) = 1 := (segField_codeword _ x).trans hseg
    exact ⟨_, _, t, ht, hfield, by rwa [hfield] at herr⟩
  · obtain ⟨t, ht⟩ := exists_gives_encode (s := s) (x := 15#16) rfl
    obtain ⟨t', ht'⟩ := exists_gives_encode (s := s) (x := 16#16) rfl
    refine ⟨_, _, t, t', ht, ht', ?_⟩
    rw [hlim]
    decide

end Sys2Proof.Machine
end
